-- ==== Sys2Proof/Word.lean ====
section
/-! DEFINITION. The word types of the K7CE engine (00_scope.md section 5, 20_memory.md R39, R40). -/

namespace Sys2Proof

/-- `u8`: one byte, an unsigned value in `[0,255]`; the unit of data (20_memory.md R39). -/
abbrev Byte := BitVec 8

/-- One 16-bit command word, transferred whole (20_memory.md R40, 30_encoding.md R50). -/
abbrev CommandWord := BitVec 16

end Sys2Proof
end

