-- ==== Sys2Proof/Config.lean ====
section
/-! DEFINITION. What an instance of the engine fixes (00_scope.md R12, 20_memory.md R37) and the one value the spec
leaves undefined (41_vigenere_stage.md R70). -/

namespace Sys2Proof

/-- `TAP_ORDER`: which register bit a tap position selects (00_scope.md R12, 43_lfsr_stage.md R88). -/
inductive TapOrder where
  /-- Position `p` is element `p` of the stored order, the front being 0: register bit `7 - p`. -/
  | stored
  /-- Position `p` is bit `p` of the register read as an integer. -/
  | significance
deriving DecidableEq, Repr

/-- `CMD_BYTE_ORDER`: the order of the halves of a command word on a channel narrower than 16 bits. A parameter of
the platform, not of the engine (20_memory.md R40). -/
inductive CmdByteOrder where
  | highFirst
  | lowFirst
deriving DecidableEq, Repr

/-- The parameters of one instance, fixed while it exists. They are plain data carried by State, so that every
statement over all states holds for every instance (log 1). -/
structure Config where
  /-- `KEY_MAX`, the capacity of the key buffer in characters, at least 1 (00_scope.md R12). -/
  keyMax : Nat
  /-- `TAP_ORDER` (00_scope.md R12). -/
  tapOrder : TapOrder
  /-- How many output bytes the engine holds before it stops accepting commands, at least 1 (20_memory.md R37, log 4). -/
  outDepth : Nat
deriving DecidableEq, Repr

/-- The instance State.reset is given: the spec's default `STORED` and recommended default 256 (00_scope.md R12), and
DESIGN CHOICE an output buffer of one byte (log 1, log 4). -/
def Config.default : Config := { keyMax := 256, tapOrder := .stored, outDepth := 1 }

/-- FREE VALUE: the key value where 41_vigenere_stage.md R70 defines none, that is of a code that is not alphabetic
(`some c`), or of a key with no character at all (`none`, outside the domain of R77). DESIGN CHOICE, log 6. -/
opaque Config.openKeyValue : Option Byte → Nat

end Sys2Proof
end

