-- ==== Sys2Proof/Syntax.lean ====
section
/-! DEFINITION. The nine commands (30_encoding.md R53) and the assembly source commands (R59 to R62). -/

namespace Sys2Proof

/-- The commands, one constructor per row of the opcode table. An operand is the whole 8-bit `arg` field, unsigned
(30_encoding.md R52), so no operand of a command can be out of range. -/
inductive Instr where
  /-- `KEYPUSH c`: append key character `c` (40_parameter_commands.md R64). -/
  | keypush (c : Byte)
  /-- `SETSHIFT v`: set the Caesar shift amount (40_parameter_commands.md R65). -/
  | setshift (v : Byte)
  /-- `SETSEED v`: set the LFSR seed (40_parameter_commands.md R66). -/
  | setseed (v : Byte)
  /-- `TAPADD p`: add tap position `p` (40_parameter_commands.md R67). -/
  | tapadd (p : Byte)
  /-- `ENC`: validate, start a job in forward mode (44_pipeline_commands.md R101). -/
  | enc
  /-- `DEC`: validate, start a job in reverse mode (44_pipeline_commands.md R102). -/
  | dec
  /-- `DATA b`: transform one byte and emit one byte (44_pipeline_commands.md R103). -/
  | data (b : Byte)
  /-- `END`: end the job, clear every register (44_pipeline_commands.md R106). -/
  | endJob
  /-- `RST`: return to the reset registers from any state (44_pipeline_commands.md R107). -/
  | rst
deriving DecidableEq, Repr

/-- One line of assembly as it is written (30_encoding.md R59 to R62): operands are numbers as the programmer wrote
them, not yet known to fit 8 bits. -/
inductive Source where
  | keypush (c : Nat)
  | setshift (v : Nat)
  | setseed (v : Nat)
  | tapadd (p : Nat)
  | enc
  | dec
  | data (b : Nat)
  | endJob
  | rst
  /-- Pseudo-instruction `KEY "s"` (R60), the characters as codes. -/
  | key (codes : List Nat)
  /-- Pseudo-instruction `TAPS` with its list of positions (R61). -/
  | taps (positions : List Nat)
  /-- Pseudo-instruction `BYTES` with its list of bytes (R62). -/
  | bytes (values : List Nat)
deriving DecidableEq, Repr

end Sys2Proof
end

