-- ==== Sys2Proof/WellFormed.lean ====
section
/-! DEFINITION. Well-formedness: of commands, of assembly source (30_encoding.md R59 to R62) and of an instance's
parameters (00_scope.md R12). -/

namespace Sys2Proof

/-- A command is well formed for every operand: the operand is the 8-bit field itself (30_encoding.md R52), and a
value the parameter ranges exclude is still a legal command (40_parameter_commands.md R63). -/
def Instr.wellFormed : Instr → Bool
  | .keypush _ => true
  | .setshift _ => true
  | .setseed _ => true
  | .tapadd _ => true
  | .enc => true
  | .dec => true
  | .data _ => true
  | .endJob => true
  | .rst => true

/-- An operand of assembly text: `0 .. 255`, anything else is an assembler error (30_encoding.md R59). -/
def operandFits (n : Nat) : Bool := n ≤ 255

/-- A printable ASCII code, all that may stand in a character operand or a key string (30_encoding.md R59, R60). -/
def printableCode (n : Nat) : Bool := 0x20 ≤ n && n ≤ 0x7E

/-- The assembler's checks on one source command (30_encoding.md R59 to R62). -/
def Source.wellFormed : Source → Bool
  | .keypush c => operandFits c
  | .setshift v => operandFits v
  | .setseed v => operandFits v
  | .tapadd p => operandFits p
  | .enc => true
  | .dec => true
  | .data b => operandFits b
  | .endJob => true
  | .rst => true
  | .key codes => codes.all printableCode
  | .taps positions => positions.all operandFits
  | .bytes values => values.all operandFits

/-- `KEY_MAX >= 1` (00_scope.md R12); the engine holds at least one output byte (20_memory.md R37). -/
def Config.wellFormed (c : Config) : Bool := 1 ≤ c.keyMax && 1 ≤ c.outDepth

end Sys2Proof
end

