-- ==== Sys2Proof/Decode.lean ====
section
/-! DEFINITION. Decoding and encoding of the 16-bit command words (30_encoding.md R50 to R57). -/

namespace Sys2Proof

/-- `op = w[15:8]` (30_encoding.md R51). -/
def opField (w : CommandWord) : Byte := w.extractLsb' 8 8

/-- `arg = w[7:0]` (30_encoding.md R51). -/
def argField (w : CommandWord) : Byte := w.extractLsb' 0 8

/-- Why a word is illegal: the two groups of 30_encoding.md R56. -/
inductive IllegalWord where
  /-- The opcode is assigned to no command. -/
  | opcodeUnassigned (op : Byte)
  /-- An opcode without an operand whose `arg` field is not `0x00` (R54). -/
  | operandNotZero (op arg : Byte)
deriving DecidableEq, Repr

/-- One row of the opcode map: a word is this row's command exactly when `(w & mask) == pattern` (30_encoding.md R53). -/
structure OpcodeRow where
  pattern : CommandWord
  mask : CommandWord
  build : Byte → Instr

/-- The opcode map of 30_encoding.md R53, in its order. -/
def opcodeMap : List OpcodeRow :=
  [ { pattern := 0x0100, mask := 0xFF00, build := .keypush },
    { pattern := 0x0200, mask := 0xFF00, build := .setshift },
    { pattern := 0x0300, mask := 0xFF00, build := .setseed },
    { pattern := 0x0400, mask := 0xFF00, build := .tapadd },
    { pattern := 0x0800, mask := 0xFFFF, build := fun _ => .enc },
    { pattern := 0x0900, mask := 0xFFFF, build := fun _ => .dec },
    { pattern := 0x0A00, mask := 0xFF00, build := .data },
    { pattern := 0x0B00, mask := 0xFFFF, build := fun _ => .endJob },
    { pattern := 0x0F00, mask := 0xFFFF, build := fun _ => .rst } ]

/-- `(w & mask) == match` (30_encoding.md R53). -/
def OpcodeRow.accepts (r : OpcodeRow) (w : CommandWord) : Bool := (w &&& r.mask) == r.pattern

/-- The reason a word that matches no row is illegal (30_encoding.md R54, R56). -/
def illegalReason (w : CommandWord) : IllegalWord :=
  if opField w = 0x08 ∨ opField w = 0x09 ∨ opField w = 0x0B ∨ opField w = 0x0F then
    .operandNotZero (opField w) (argField w)
  else
    .opcodeUnassigned (opField w)

/-- `decode(w)`: the command of the one row the word matches, with its operand, or the reason it is illegal. Total,
and a function of the word alone (30_encoding.md R55). -/
def decode (w : CommandWord) : Except IllegalWord Instr :=
  match opcodeMap.find? (fun r => r.accepts w) with
  | some r => .ok (r.build (argField w))
  | none => .error (illegalReason w)

/-- The `op` field of each command (30_encoding.md R53). -/
def Instr.opcode : Instr → Byte
  | .keypush _ => 0x01
  | .setshift _ => 0x02
  | .setseed _ => 0x03
  | .tapadd _ => 0x04
  | .enc => 0x08
  | .dec => 0x09
  | .data _ => 0x0A
  | .endJob => 0x0B
  | .rst => 0x0F

/-- The `arg` field of each command; `0x00` for the four without an operand (30_encoding.md R52, R54). -/
def Instr.operand : Instr → Byte
  | .keypush c => c
  | .setshift v => v
  | .setseed v => v
  | .tapadd p => p
  | .enc => 0x00
  | .dec => 0x00
  | .data b => b
  | .endJob => 0x00
  | .rst => 0x00

/-- The word the assembler emits for a command: `{op, arg}` (30_encoding.md R51, R59). -/
def encode (i : Instr) : CommandWord := i.opcode ++ i.operand

/-- A command word joined from the two halves of a narrower channel, in the platform's order (20_memory.md R40, log 7). -/
def joinHalves (order : CmdByteOrder) (first second : Byte) : CommandWord :=
  match order with
  | .highFirst => first ++ second
  | .lowFirst => second ++ first

/-- The command a table row's bits stand for, none where the word is illegal: a row is one word of at
most 16 bits, bit 0 the least significant. -/
def decodeTableWord (nbits w : Nat) : Option Instr :=
  if nbits ≤ 16 then (decode (BitVec.ofNat 16 (w % 2 ^ nbits))).toOption else none

end Sys2Proof
end

