-- ==== Sys2Proof/Machine/Operands.lean ====
section
/-! DEFINITION. What the 8-bit operands mean and the arithmetic on them: `mod256` (00_scope.md section 5), key characters
(41_vigenere_stage.md R69, R70), tap positions (40_parameter_commands.md R67). -/

namespace Sys2Proof.Machine

/-- `mod256(n)`: the one value in `[0,255]` that differs from the integer `n` by a multiple of 256, negative `n`
included (00_scope.md section 5). -/
def mod256 (n : Int) : Byte := BitVec.ofInt 8 n

/-- `isalpha(c)`: the codes of `A` to `Z` and `a` to `z`, no other (41_vigenere_stage.md R69). -/
def isAlpha (c : Byte) : Bool :=
  (0x41 ≤ c.toNat && c.toNat ≤ 0x5A) || (0x61 ≤ c.toNat && c.toNat ≤ 0x7A)

/-- `KV(c)` of an alphabetic code: `(c & 0xDF) - 0x41` (41_vigenere_stage.md R70). Of any other code R70 defines none and
no rule evaluates it: a free value (log 6). -/
def keyValue (c : Byte) : Nat :=
  if isAlpha c then (c &&& 0xDF).toNat - 0x41 else Config.openKeyValue (some c)

/-- `p <= 7`: a tap position is a valid register index (40_parameter_commands.md R67). -/
def tapInRange (p : Byte) : Bool := p.toNat ≤ 7

/-- `1 << p` in eight bits: the mask of one tap position (40_parameter_commands.md R67). -/
def tapMask (p : Byte) : Byte := 1#8 <<< p.toNat

/-- `bitrev8`: the byte with the order of its bits reversed (43_lfsr_stage.md R88, R97). -/
def bitrev8 (v : Byte) : Byte := v.reverse

/-- `parity(v)`: the exclusive or of all bits (00_scope.md section 5). -/
def parity (v : Byte) : Bool :=
  (List.range 8).foldl (fun acc j => acc ^^ v.getLsbD j) false

end Sys2Proof.Machine
end

