-- ==== Sys2Proof/Machine/State.lean ====
section
/-! DEFINITION. The state of the K7CE engine (10_state.md R13 to R33), what the host does next, the reasons the model
stops, and the machine right after reset. -/

namespace Sys2Proof.Machine

/-- `ST` (10_state.md R15). The value 3 is never written and is left out of the type, as R15 allows (log 9). -/
inductive EngineState where
  /-- Parameters may be loaded, no job is running. -/
  | idle
  /-- A job is running: parameters are frozen, data bytes are transformed. -/
  | run
  /-- A fault was taken; everything but `RST` and the reset pin is ignored. -/
  | fault
deriving DecidableEq, Repr

/-- `MODE`, the setting of the pipeline multiplexer (10_state.md R17): forward is 0, reverse is 1. -/
inductive Mode where
  | forward
  | reverse
deriving DecidableEq, Repr

/-- The key space: the cells that hold a character, by strictly rising index (20_memory.md R34). A cell that is not
listed holds no value (10_state.md R22, log 5), so no entry can equal what an unlisted cell reads as. -/
abbrev Memory := List Host.Cell

/-- What the host does at the pins other than presenting a command (20_memory.md R37, 70_reset_and_hazards.md R135). -/
inductive PinEvent where
  /-- The reset pin `rst` is asserted. -/
  | rst
  /-- The host sets the level it holds on `out_ready`. -/
  | outReady (level : Bool)
  /-- The host takes one held byte and leaves `out_ready` as it was. -/
  | takeByte
deriving DecidableEq, Repr

/-- One thing the host does: present a command word until it is accepted (20_memory.md R36), or move a pin. -/
inductive HostEvent where
  | word (w : CommandWord)
  | pin (e : PinEvent)
deriving DecidableEq, Repr

/-- The whole machine: the registers of 10_state.md R13, the output stream of R26, the bytes held at the output port
(20_memory.md R37), and the model's own three fields `outReady`, `input` and `config` (log 1, log 2, log 4). -/
structure State where
  /-- `ST` (10_state.md R15). -/
  st : EngineState
  /-- `ERR`, the cause flags (10_state.md R16). -/
  err : Byte
  /-- `MODE` (10_state.md R17). -/
  mode : Mode
  /-- `SHIFT` (10_state.md R18). -/
  shift : Byte
  /-- `SEED` (10_state.md R19). -/
  seed : Byte
  /-- `TAPS`: bit `p` is 1 when position `p` is a tap (10_state.md R20). -/
  taps : Byte
  /-- `TAPBAD` (10_state.md R21). -/
  tapbad : Bool
  /-- `KEY`, the cells of the key buffer (10_state.md R22, 20_memory.md R34). -/
  key : Memory
  /-- `KLEN` (10_state.md R22). -/
  klen : Nat
  /-- `KEYOVF` (10_state.md R23). -/
  keyovf : Bool
  /-- `KIDX` (10_state.md R24). -/
  kidx : Nat
  /-- `LFSR` (10_state.md R25). -/
  lfsr : Byte
  /-- `OUT`: every byte emitted since reset, oldest first (10_state.md R26). -/
  out : List Byte
  /-- The emitted bytes the host has not taken yet, oldest first (20_memory.md R37, 70_reset_and_hazards.md R137). -/
  held : List Byte
  /-- The model's own: the level the host holds on `out_ready` (log 4). -/
  outReady : Bool
  /-- The model's own: what the host does next, in order; its words are `CMD` (10_state.md R27, log 2). -/
  input : List HostEvent
  /-- The model's own: the parameters of this instance; no step writes them (log 1). -/
  config : Config
deriving DecidableEq, Repr

/-- Why the model stops. The engine's own faults are no stops: they are next states (60_exceptions.md R125). Neither
reason arises in a state reached from reset (log 5). -/
inductive Fault where
  /-- Raised by an access to a key index of `KEY_MAX` or more, a cell that does not exist (20_memory.md R34). Safe: the
  model stops where the spec says no rule goes. -/
  | keyCellAbsent (index : Nat)
  /-- Raised by a read of a key cell that holds no value (10_state.md R22: no rule reads it). Safe: the model stops where
  the spec says no rule goes. -/
  | keyCellUnwritten (index : Nat)
deriving DecidableEq, Repr

/-- Why the model has no meaning for an instruction. -/
inductive Refusal where
  /-- Raised by an arm of exec whose instruction has no meaning yet; no arm raises it. Safe: nothing is claimed. -/
  | notModelled (mnemonic : String)
deriving DecidableEq, Repr

/-- The engine right after reset (10_state.md R33, 70_reset_and_hazards.md R136), as the instance `c`, with no byte held,
`out_ready` high (DESIGN CHOICE, log 4) and nothing presented. -/
def State.resetWith (c : Config) : State :=
  { st := .idle, err := 0x00, mode := .forward, shift := 0x00, seed := 0x00, taps := 0x00, tapbad := false
    key := [], klen := 0, keyovf := false, kidx := 0, lfsr := 0x00, out := [], held := [], outReady := true
    input := [], config := c }

/-- The machine right after reset, as the instance with the spec's default parameters (00_scope.md R12, log 1). -/
def State.reset : State := State.resetWith Config.default

end Sys2Proof.Machine
end

