-- ==== Sys2Proof/Machine/Ops.lean ====
section
/-! DEFINITION. The operations the commands share: the key space (20_memory.md R34), taking a fault and the return from
one (60_exceptions.md R125, R130), the check of the state a command needs (44_pipeline_commands.md R99), emitting a byte
(00_scope.md section 5, 20_memory.md R37). -/

namespace Sys2Proof.Machine

/-- The outcome of a meaning. -/
abbrev Result := Host.Outcome State Fault Refusal

/-! The key space. -/

/-- The canonical form: indices strictly rising. An unlisted cell reads as no value, so no entry can equal it. -/
abbrev Memory.wf (m : Memory) : Prop := m.Pairwise (fun p q => p.1 < q.1)

/-- The value a cell holds, if it holds one (10_state.md R22). -/
def Memory.read : Memory → Nat → Option Byte
  | [], _ => none
  | (b, v) :: m, a => if a = b then some v else Memory.read m a

/-- The key space with the cell `a` holding `v`. -/
def Memory.write : Memory → Nat → Byte → Memory
  | [], a, v => [(a, v)]
  | (b, u) :: m, a, v =>
    if a < b then (a, v) :: (b, u) :: m
    else if a = b then (a, v) :: m
    else (b, u) :: Memory.write m a v

/-- `MemRead(a, 1)`: the cell must exist (20_memory.md R34) and hold a value (10_state.md R22). -/
def memRead (s : State) (a : Nat) : Except Fault Byte :=
  if a < s.config.keyMax then
    match Memory.read s.key a with
    | some c => .ok c
    | none => .error (.keyCellUnwritten a)
  else .error (.keyCellAbsent a)

/-- `MemWrite(a, 1, v)`: the cell must exist (20_memory.md R34). -/
def memWrite (s : State) (a : Nat) (v : Byte) : Except Fault State :=
  if a < s.config.keyMax then .ok { s with key := Memory.write s.key a v }
  else .error (.keyCellAbsent a)

/-- The first `n` characters of the key buffer, read in order. -/
def readKeyUpTo (s : State) : Nat → Except Fault (List Byte)
  | 0 => .ok []
  | n + 1 =>
    match readKeyUpTo s n with
    | .error r => .error r
    | .ok chars =>
      match memRead s n with
      | .error r => .error r
      | .ok c => .ok (chars ++ [c])

/-- The key: `KEY[0], ..., KEY[KLEN-1]` (10_state.md R22). -/
def readKey (s : State) : Except Fault (List Byte) := readKeyUpTo s s.klen

/-! Taking a fault and returning from one. -/

/-- `raise Fault(flags)`: `ERR <- flags`, `ST <- FAULT`, and no other effect (60_exceptions.md R125, R126). -/
def raiseFault (flags : Byte) (s : State) : State := { s with err := flags, st := .fault }

/-- The register writes of `END` and `RST`, the latter being the return from a fault: every register takes its reset
value, `OUT` is not touched (44_pipeline_commands.md R106, R107, 60_exceptions.md R130). The key becomes the empty
sequence: no cell is listed (10_state.md R22, log 5). -/
def clearRegisters (s : State) : State :=
  { s with
    st := .idle, err := 0x00, mode := .forward, shift := 0x00, seed := 0x00, taps := 0x00, tapbad := false
    key := [], klen := 0, keyovf := false, kidx := 0, lfsr := 0x00 }

/-! The state a command needs. -/

/-- `E_PROTO`, bit 6 of `ERR`: a legal command in a state that does not permit it (60_exceptions.md R123). -/
def eProto : Byte := 0x40

/-- A command permitted only in `IDLE`: `E_PROTO` in `RUN`, discarded in `FAULT` (44_pipeline_commands.md R99). -/
def whenIdle (s : State) (body : Result) : Result :=
  match s.st with
  | .idle => body
  | .run => .next (raiseFault eProto s)
  | .fault => .next s

/-- A command permitted only in `RUN`: `E_PROTO` in `IDLE`, discarded in `FAULT` (44_pipeline_commands.md R99). -/
def whenRunning (s : State) (body : Result) : Result :=
  match s.st with
  | .idle => .next (raiseFault eProto s)
  | .run => body
  | .fault => .next s

/-! Output. -/

/-- `emit(v)`: append the byte to `OUT` (00_scope.md section 5). With `out_ready` high the host takes it, and all bytes
before it, at once; with `out_ready` low the engine holds it (20_memory.md R37, log 4). -/
def emit (v : Byte) (s : State) : State :=
  { s with out := s.out ++ [v], held := if s.outReady then [] else s.held ++ [v] }

end Sys2Proof.Machine
end

