-- ==== Sys2Proof/Machine/Flags.lean ====
section
/-! DEFINITION. The cause flags of `ERR` and the checks that set them (10_state.md R16, 44_pipeline_commands.md R100,
60_exceptions.md R116 to R124, R132). `E_PROTO` stands in Ops, with the check that raises it. -/

namespace Sys2Proof.Machine

/-- `E_KEYEMPTY`, bit 0 (60_exceptions.md R117). -/
def eKeyEmpty : Byte := 0x01
/-- `E_KEYALPHA`, bit 1 (60_exceptions.md R118). -/
def eKeyAlpha : Byte := 0x02
/-- `E_KEYOVF`, bit 2 (60_exceptions.md R119). -/
def eKeyOvf : Byte := 0x04
/-- `E_SHIFT`, bit 3 (60_exceptions.md R120). -/
def eShift : Byte := 0x08
/-- `E_SEED`, bit 4 (60_exceptions.md R121). -/
def eSeed : Byte := 0x10
/-- `E_TAP`, bit 5 (60_exceptions.md R122). -/
def eTap : Byte := 0x20
/-- `E_ILLEGAL`, bit 7 (60_exceptions.md R124). -/
def eIllegal : Byte := 0x80

/-- A flag when its check fails, else no flag. -/
def flagIf (failed : Bool) (flag : Byte) : Byte := if failed then flag else 0x00

/-- `Validate()`: the flags of all the checks that fail, each made every time (44_pipeline_commands.md R100); `chars` is
the key as read from the key space. -/
def validate (chars : List Byte) (s : State) : Byte :=
  flagIf (s.klen == 0) eKeyEmpty
    ||| flagIf (chars.any (fun c => !isAlpha c)) eKeyAlpha
    ||| flagIf s.keyovf eKeyOvf
    ||| flagIf (s.shift.toNat < 1 || 25 < s.shift.toNat) eShift
    ||| flagIf (s.seed == 0x00) eSeed
    ||| flagIf s.tapbad eTap

/-- DOC's `InvalidKey`: `ERR & 0x07 != 0` (60_exceptions.md R132). -/
def isInvalidKey (err : Byte) : Bool := (err &&& 0x07) != 0x00

/-- DOC's `InvalidParameter`: `ERR & 0x38 != 0` (60_exceptions.md R132). -/
def isInvalidParameter (err : Byte) : Bool := (err &&& 0x38) != 0x00

end Sys2Proof.Machine
end

