-- ==== Sys2Proof/Machine/Parameter.lean ====
section
/-! DEFINITION. The parameter commands `KEYPUSH`, `SETSHIFT`, `SETSEED`, `TAPADD` (40_parameter_commands.md R63 to R68). -/

namespace Sys2Proof.Machine

/-- Append one character to the key, or remember that the buffer was full (40_parameter_commands.md R64). -/
def pushKey (c : Byte) (s : State) : Result :=
  if s.klen < s.config.keyMax then
    match memWrite s s.klen c with
    | .error r => .fault r
    | .ok t => .next { t with klen := s.klen + 1 }
  else .next { s with keyovf := true }

/-- Add one position to the tap set, or remember that it was out of range (40_parameter_commands.md R67). -/
def addTap (p : Byte) (s : State) : State :=
  if tapInRange p then { s with taps := s.taps ||| tapMask p } else { s with tapbad := true }

/-- `KEYPUSH c` (40_parameter_commands.md R64). -/
def execKeypush (c : Byte) (s : State) : Result := whenIdle s (pushKey c s)

/-- `SETSHIFT v` (40_parameter_commands.md R65). -/
def execSetshift (v : Byte) (s : State) : Result := whenIdle s (.next { s with shift := v })

/-- `SETSEED v` (40_parameter_commands.md R66); `LFSR` is not touched. -/
def execSetseed (v : Byte) (s : State) : Result := whenIdle s (.next { s with seed := v })

/-- `TAPADD p` (40_parameter_commands.md R67). -/
def execTapadd (p : Byte) (s : State) : Result := whenIdle s (.next (addTap p s))

end Sys2Proof.Machine
end

