-- ==== Sys2Proof/Machine/Caesar.lean ====
section
/-! DEFINITION. The Caesar shift engine and the stage on sequences (42_caesar_stage.md R79 to R84). -/

namespace Sys2Proof.Machine

/-- `CaeFwd(b, s) = mod256(b + s)` (42_caesar_stage.md R80), total for every 8-bit shift (R82). -/
def caeFwd (b shift : Byte) : Byte := mod256 ((b.toNat : Int) + shift.toNat)

/-- `CaeRev(b, s) = mod256(b - s)` (42_caesar_stage.md R81). -/
def caeRev (b shift : Byte) : Byte := mod256 ((b.toNat : Int) - shift.toNat)

/-- `CaesarApply(text, shift, encrypt)` (42_caesar_stage.md R83). -/
def caesarApply (text : List Byte) (shift : Byte) (encrypt : Bool) : List Byte :=
  text.map (fun b => if encrypt then caeFwd b shift else caeRev b shift)

end Sys2Proof.Machine
end

