-- ==== Sys2Proof/Machine/Lfsr.lean ====
section
/-! DEFINITION. The LFSR keystream generator and the stage on sequences (43_lfsr_stage.md R85 to R98). -/

namespace Sys2Proof.Machine

/-- `tapbit(p)`: the register bit that tap position `p` selects (43_lfsr_stage.md R88). -/
def tapbit (order : TapOrder) (p : Nat) : Nat :=
  match order with
  | .stored => 7 - p
  | .significance => p

/-- `Feedback(LFSR, TAPS)`: the exclusive or of the register bits at the tap positions, taken before the shift; 0 for
the empty set (43_lfsr_stage.md R88). -/
def feedback (order : TapOrder) (r t : Byte) : Bool :=
  (List.range 8).foldl (fun acc p => acc ^^ (t.getLsbD p && r.getLsbD (tapbit order p))) false

/-- The new register: the feedback bit at the front, then the old register without its last bit (43_lfsr_stage.md R89). -/
def shiftIn (f : Bool) (r : Byte) : Byte := ((BitVec.ofBool f).setWidth 8 <<< 7) ||| (r >>> 1)

/-- `LfsrStep(R, T)`: the register after one step and the output bit, both computed from the register before the shift
(43_lfsr_stage.md R87, R90). -/
def lfsrStep (order : TapOrder) (r t : Byte) : Byte × Bool :=
  (shiftIn (feedback order r t) r, r.getLsbD 0)

/-- `n` steps whose output bits are shifted into the keystream byte `k` from the right (43_lfsr_stage.md R91). -/
def ksSteps (order : TapOrder) (t : Byte) : Nat → Byte → Byte → Byte × Byte
  | 0, r, k => (r, k)
  | n + 1, r, k =>
    ksSteps order t n (lfsrStep order r t).1 ((k <<< 1) ||| (BitVec.ofBool (lfsrStep order r t).2).setWidth 8)

/-- `KsByte(R, T)`: the register after eight steps and the keystream byte, most significant bit first
(43_lfsr_stage.md R91). -/
def ksByte (order : TapOrder) (r t : Byte) : Byte × Byte := ksSteps order t 8 r 0x00

/-- The stage on a text, from the register `r` on. -/
def streamFrom (order : TapOrder) (t : Byte) : Byte → List Byte → List Byte
  | _, [] => []
  | r, b :: text => (b ^^^ (ksByte order r t).2) :: streamFrom order t (ksByte order r t).1 text

/-- `StreamApply(text, seed, T)` (43_lfsr_stage.md R98). -/
def streamApply (order : TapOrder) (text : List Byte) (seed t : Byte) : List Byte := streamFrom order t seed text

end Sys2Proof.Machine
end

