-- ==== Sys2Proof/Machine/Vigenere.lean ====
section
/-! DEFINITION. The Vigenère substitution engine: key indexer, modular adder, and the stage on sequences
(41_vigenere_stage.md R71 to R78). -/

namespace Sys2Proof.Machine

/-- The key indexer's advance: one further, wrapping at the key length (41_vigenere_stage.md R72). -/
def advanceKidx (kidx klen : Nat) : Nat := if kidx + 1 = klen then 0 else kidx + 1

/-- `VigFwd(b, k) = mod256(b + k)` (41_vigenere_stage.md R74). -/
def vigFwd (b : Byte) (k : Nat) : Byte := mod256 ((b.toNat : Int) + k)

/-- `VigRev(b, k) = mod256(b - k)` (41_vigenere_stage.md R75). -/
def vigRev (b : Byte) (k : Nat) : Byte := mod256 ((b.toNat : Int) - k)

/-- The key value for position `i` of a text: that of the character at `i mod L` (41_vigenere_stage.md R71). A key with no
character is outside the domain of R77: a free value (log 6). -/
def keyValueAt (key : List Byte) (i : Nat) : Nat :=
  match key[i % key.length]? with
  | some c => keyValue c
  | none => Config.openKeyValue none

/-- The stage on the rest of a text whose first byte stands at position `i`. -/
def vigFrom (key : List Byte) (encrypt : Bool) : Nat → List Byte → List Byte
  | _, [] => []
  | i, b :: text =>
    (if encrypt then vigFwd b (keyValueAt key i) else vigRev b (keyValueAt key i)) :: vigFrom key encrypt (i + 1) text

/-- `VigApply(text, key, encrypt)` (41_vigenere_stage.md R77). -/
def vigApply (text key : List Byte) (encrypt : Bool) : List Byte := vigFrom key encrypt 0 text

end Sys2Proof.Machine
end

