-- ==== Sys2Proof/Machine/Pipeline.lean ====
section
/-! DEFINITION. The pipeline multiplexer and the job commands `ENC`, `DEC`, `DATA`, `END`, `RST`, and the job as a
function on sequences (44_pipeline_commands.md R100 to R115). -/

namespace Sys2Proof.Machine

/-- Validate, then start a job in the given mode or raise every failing flag in one fault
(44_pipeline_commands.md R101, R102, 60_exceptions.md R128). -/
def startJob (m : Mode) (s : State) : Result :=
  match readKey s with
  | .error r => .fault r
  | .ok chars =>
    if validate chars s = 0x00 then
      .next { s with mode := m, kidx := 0, lfsr := s.seed, st := .run }
    else .next (raiseFault (validate chars s) s)

/-- The forward datapath: Substitution, Shift, Stream, with key value `k` and keystream byte `ks`
(44_pipeline_commands.md R104). -/
def forwardPath (b : Byte) (k : Nat) (shift ks : Byte) : Byte := caeFwd (vigFwd b k) shift ^^^ ks

/-- The reverse datapath: Stream, Shift inverted, Substitution inverted (44_pipeline_commands.md R105). -/
def reversePath (b : Byte) (k : Nat) (shift ks : Byte) : Byte := vigRev (caeRev (b ^^^ ks) shift) k

/-- The multiplexer: the order of the stages and the sign of the adders (44_pipeline_commands.md R108). -/
def muxPath (m : Mode) (b : Byte) (k : Nat) (shift ks : Byte) : Byte :=
  match m with
  | .forward => forwardPath b k shift ks
  | .reverse => reversePath b k shift ks

/-- Transform one byte, emit one byte, advance the indexer once and the register eight steps; all reads see the state
before the command (44_pipeline_commands.md R103, R104, R109). -/
def transformByte (b : Byte) (s : State) : Result :=
  match memRead s s.kidx with
  | .error r => .fault r
  | .ok c =>
    .next
      { emit (muxPath s.mode b (keyValue c) s.shift (ksByte s.config.tapOrder s.lfsr s.taps).2) s with
        lfsr := (ksByte s.config.tapOrder s.lfsr s.taps).1
        kidx := advanceKidx s.kidx s.klen }

/-- `ENC` (44_pipeline_commands.md R101). -/
def execEnc (s : State) : Result := whenIdle s (startJob .forward s)

/-- `DEC` (44_pipeline_commands.md R102). -/
def execDec (s : State) : Result := whenIdle s (startJob .reverse s)

/-- `DATA b` (44_pipeline_commands.md R103). -/
def execData (b : Byte) (s : State) : Result := whenRunning s (transformByte b s)

/-- `END` (44_pipeline_commands.md R106). -/
def execEndJob (s : State) : Result := whenRunning s (.next (clearRegisters s))

/-- `RST`, in every state (44_pipeline_commands.md R107). -/
def execRst (s : State) : Result := .next (clearRegisters s)

/-- The parameter bundle of one job (00_scope.md R11, 44_pipeline_commands.md R110); the taps as a mask. -/
structure Bundle where
  key : List Byte
  shift : Byte
  seed : Byte
  taps : Byte
deriving DecidableEq, Repr

/-- A valid bundle: a non-empty alphabetic key, a shift in `[1,25]`, a seed in `[1,255]`, any tap set
(44_pipeline_commands.md R110). -/
def Bundle.valid (p : Bundle) : Bool :=
  1 ≤ p.key.length && p.key.all isAlpha && 1 ≤ p.shift.toNat && p.shift.toNat ≤ 25 && 1 ≤ p.seed.toNat

/-- `Encrypt(x, key, s, seed, T)` (44_pipeline_commands.md R110). -/
def encrypt (order : TapOrder) (x : List Byte) (p : Bundle) : List Byte :=
  streamApply order (caesarApply (vigApply x p.key true) p.shift true) p.seed p.taps

/-- `Decrypt(x, key, s, seed, T)` (44_pipeline_commands.md R110). -/
def decrypt (order : TapOrder) (x : List Byte) (p : Bundle) : List Byte :=
  vigApply (caesarApply (streamApply order x p.seed p.taps) p.shift false) p.key false

end Sys2Proof.Machine
end

