-- ==== Sys2Proof/Machine/Dispatch.lean ====
section
/-! DEFINITION. One arm per command of 30_encoding.md R53, each a direct call of its meaning. -/

namespace Sys2Proof.Machine

def exec (i : Instr) (s : State) : Host.Outcome State Fault Refusal :=
  match i with
  | .keypush c => Sys2Proof.Machine.execKeypush c s
  | .setshift v => Sys2Proof.Machine.execSetshift v s
  | .setseed v => Sys2Proof.Machine.execSetseed v s
  | .tapadd p => Sys2Proof.Machine.execTapadd p s
  | .enc => Sys2Proof.Machine.execEnc s
  | .dec => Sys2Proof.Machine.execDec s
  | .data b => Sys2Proof.Machine.execData b s
  | .endJob => Sys2Proof.Machine.execEndJob s
  | .rst => Sys2Proof.Machine.execRst s

end Sys2Proof.Machine
end

