-- ==== Sys2Proof/Machine/Ports.lean ====
section
/-! DEFINITION. The three ports, the reset pin, and the transfer of one command word (20_memory.md R36 to R38,
44_pipeline_commands.md R99, 70_reset_and_hazards.md R135 to R137, R144). -/

namespace Sys2Proof.Machine

/-- The two bits of `ST` on the status port (10_state.md R15). -/
def EngineState.bits : EngineState → BitVec 2
  | .idle => 0
  | .run => 1
  | .fault => 2

/-- The bit of `MODE` (10_state.md R17). -/
def Mode.bit : Mode → BitVec 1
  | .forward => 0
  | .reverse => 1

/-- What the status port carries (20_memory.md R38). -/
structure StatusPort where
  st : BitVec 2
  err : Byte
  fault : Bool
deriving DecidableEq, Repr

/-- The status port as levels of the state; reading it changes nothing (10_state.md R28, 20_memory.md R38, R42). -/
def State.statusPort (s : State) : StatusPort :=
  { st := s.st.bits, err := s.err, fault := s.st == .fault }

/-- `out_valid`: a byte waits to be taken (20_memory.md R37). -/
def State.outValid (s : State) : Bool := !s.held.isEmpty

/-- `out_byte` while `out_valid` is 1: the oldest byte not taken (20_memory.md R37). -/
def State.outByte (s : State) : Option Byte := s.held.head?

/-- `cmd_ready`: the engine holds fewer bytes than it can hold for a stalled output port (20_memory.md R37,
70_reset_and_hazards.md R144, log 4). -/
def State.cmdReady (s : State) : Bool := s.held.length < s.config.outDepth

/-- The reset pin: every register at its reset value, `OUT` empty, a held byte lost; the instance and the host stay what
they are (70_reset_and_hazards.md R135, R137, log 3). -/
def pinReset (s : State) : State := { clearRegisters s with out := [], held := [] }

/-- The effect of one pin event. Raising `out_ready` lets the host take every held byte (20_memory.md R37, log 4). -/
def applyPin (e : PinEvent) (s : State) : State :=
  match e with
  | .rst => pinReset s
  | .outReady level => { s with outReady := level, held := if level then [] else s.held }
  | .takeByte => { s with held := s.held.tail }

/-- An illegal word: `E_ILLEGAL` in `IDLE` and `RUN`, discarded in `FAULT` (30_encoding.md R56, 60_exceptions.md R124,
R129). -/
def takeIllegal (s : State) : Result :=
  match s.st with
  | .idle => .next (raiseFault eIllegal s)
  | .run => .next (raiseFault eIllegal s)
  | .fault => .next s

/-- One step of the engine on one transferred word (44_pipeline_commands.md R99). -/
def takeWord (w : CommandWord) (s : State) : Result :=
  match decode w with
  | .error _ => takeIllegal s
  | .ok i => exec i s

/-- The next thing the host does. With nothing presented the engine holds its state (60_exceptions.md R134). A word the
command port cannot take waits: only a pin event that comes next can move, and without one the state stays as it is
(20_memory.md R37, 70_reset_and_hazards.md R144, log 4). -/
def hostStep (s : State) : Result :=
  match s.input with
  | [] => .next s
  | .pin e :: rest => .next (applyPin e { s with input := rest })
  | .word w :: rest =>
    if s.cmdReady then takeWord w { s with input := rest }
    else
      match rest with
      | .pin e :: later => .next (applyPin e { s with input := .word w :: later })
      | .word _ :: _ => .next s
      | [] => .next s

/-- The command word a table row's bits stand for, one word of at most 16 bits, bit 0 the least significant. -/
def tableWord (nbits w : Nat) : CommandWord := BitVec.ofNat 16 (w % 2 ^ nbits)

/-- The state with the word presented next on a command port that can take it: the host has taken the bytes the engine
held (log 2). -/
def presentWord (w : CommandWord) (s : State) : State := { s with input := .word w :: s.input, held := [] }

end Sys2Proof.Machine
end

