-- ==== Sys2Proof/Machine/Step.lean ====
section
/-! DEFINITION. The step of the machine, and the placing of one command word where the next step takes it. -/

namespace Sys2Proof.Machine

/-- One step: the next thing the host does, done (00_scope.md R9, 20_memory.md R36). -/
def step (s : State) : Host.Outcome State Fault Refusal := hostStep s

/-- The state whose very next step takes the given word: the host presents it (log 2). -/
def State.withFetchWord (s : State) (nbits w : Nat) : State := presentWord (tableWord nbits w) s

end Sys2Proof.Machine
end

