-- ==== Sys2Proof/Machine/Assembler.lean ====
section
/-! DEFINITION. The assembler: pseudo-instructions, the words of a source command, and the text of one line
(30_encoding.md R59 to R62, log 11). No rule of the engine reads this file. -/

namespace Sys2Proof.Machine

/-- The commands one source command stands for; a pseudo-instruction expands in order (30_encoding.md R60 to R62). -/
def expand : Source → List Instr
  | .keypush c => [.keypush (BitVec.ofNat 8 c)]
  | .setshift v => [.setshift (BitVec.ofNat 8 v)]
  | .setseed v => [.setseed (BitVec.ofNat 8 v)]
  | .tapadd p => [.tapadd (BitVec.ofNat 8 p)]
  | .enc => [.enc]
  | .dec => [.dec]
  | .data b => [.data (BitVec.ofNat 8 b)]
  | .endJob => [.endJob]
  | .rst => [.rst]
  | .key codes => codes.map (fun c => .keypush (BitVec.ofNat 8 c))
  | .taps positions => positions.map (fun p => .tapadd (BitVec.ofNat 8 p))
  | .bytes values => values.map (fun b => .data (BitVec.ofNat 8 b))

/-- The words of a source command, or none where the assembler reports an error (30_encoding.md R59). -/
def assemble (c : Source) : Option (List CommandWord) :=
  if c.wellFormed then some ((expand c).map encode) else none

/-- A piece of an assembly line. -/
inductive Token where
  /-- A run of letters and digits: a mnemonic or a number. -/
  | word (chars : List Char)
  /-- A character between apostrophes, as its code. -/
  | code (n : Nat)
  /-- A string between double quotes, as its codes. -/
  | text (codes : List Nat)
  /-- Any other single character that is no space. -/
  | mark (c : Char)
deriving DecidableEq, Repr

/-- Where the reading of a line stands. -/
inductive LexState where
  | between
  | inWord (reversed : List Char)
  | codeOpen
  | codeClose (n : Nat)
  | inText (reversed : List Nat)

/-- A character of a mnemonic or a number. -/
def isWordChar (c : Char) : Bool :=
  (65 ≤ c.toNat && c.toNat ≤ 90) || (97 ≤ c.toNat && c.toNat ≤ 122) || (48 ≤ c.toNat && c.toNat ≤ 57)

/-- The tokens of a line, up to the `;` that starts a comment (30_encoding.md R59); none where a character or a string is
not closed. DESIGN CHOICE, log 11: a `;` in a character or a string starts no comment; a string ends at the first double
quote, so no line writes a `KEY` string that holds one (R60 gives no escape); any one character may stand between
apostrophes, an apostrophe too; a quote may not follow a word without a blank. -/
def lex : LexState → List Char → Option (List Token)
  | .between, [] => some []
  | .inWord w, [] => some [.word w.reverse]
  | .codeOpen, [] => none
  | .codeClose _, [] => none
  | .inText _, [] => none
  | .between, c :: cs =>
    if c = ';' then some []
    else if c = ' ' ∨ c = '\t' then lex .between cs
    else if c = '\'' then lex .codeOpen cs
    else if c = '"' then lex (.inText []) cs
    else if isWordChar c then lex (.inWord [c]) cs
    else (lex .between cs).map (Token.mark c :: ·)
  | .inWord w, c :: cs =>
    if isWordChar c then lex (.inWord (c :: w)) cs
    else if c = ';' then some [.word w.reverse]
    else if c = ' ' ∨ c = '\t' then (lex .between cs).map (Token.word w.reverse :: ·)
    else if c = '\'' ∨ c = '"' then none
    else (lex .between cs).map (Token.word w.reverse :: Token.mark c :: ·)
  | .codeOpen, c :: cs => lex (.codeClose c.toNat) cs
  | .codeClose n, c :: cs => if c = '\'' then (lex .between cs).map (Token.code n :: ·) else none
  | .inText w, c :: cs =>
    if c = '"' then (lex .between cs).map (Token.text w.reverse :: ·) else lex (.inText (c.toNat :: w)) cs

/-- The value of one digit in bases up to 16. -/
def digitValue (c : Char) : Option Nat :=
  if 48 ≤ c.toNat ∧ c.toNat ≤ 57 then some (c.toNat - 48)
  else if 97 ≤ c.toNat ∧ c.toNat ≤ 102 then some (c.toNat - 87)
  else if 65 ≤ c.toNat ∧ c.toNat ≤ 70 then some (c.toNat - 55)
  else none

/-- The number a run of digits writes, `acc` being the value so far. -/
def digitsFrom (base : Nat) (acc : Nat) : List Char → Option Nat
  | [] => some acc
  | c :: cs =>
    match digitValue c with
    | some d => if d < base then digitsFrom base (acc * base + d) cs else none
    | none => none

/-- A decimal number, or a hexadecimal number after `0x` (30_encoding.md R59). DESIGN CHOICE, log 11: any number of
digits, leading zeros allowed, the digits of a hexadecimal number in either case, the `x` small. -/
def readNumber : List Char → Option Nat
  | [] => none
  | ['0', 'x'] => none
  | '0' :: 'x' :: cs => digitsFrom 16 0 cs
  | c :: cs => digitsFrom 10 0 (c :: cs)

/-- An operand: a number, or a printable character between apostrophes (30_encoding.md R59). -/
def readOperand : Token → Option Nat
  | .word w => readNumber w
  | .code n => if printableCode n then some n else none
  | .text _ => none
  | .mark _ => none

/-- Operands with a comma between two of them, up to the closing mark, which ends the line (30_encoding.md R61, R62).
DESIGN CHOICE, log 11: a `TAPS` list may hold characters between apostrophes as a `BYTES` list may, where R61 names
numbers only and R62 numbers or characters; a comma after the last operand is an error. -/
def readList (close : Char) : List Token → Option (List Nat)
  | [] => none
  | [.mark c] => if c = close then some [] else none
  | [x, .mark c] => if c = close then (readOperand x).map (fun n => [n]) else none
  | x :: .mark c :: y :: rest =>
    if c = ',' ∧ y ≠ .mark close then
      match readOperand x, readList close (y :: rest) with
      | some n, some ns => some (n :: ns)
      | _, _ => none
    else none
  | _ :: _ => none

/-- The source command the tokens of a line write (30_encoding.md R59 to R62). -/
def readCommand : List Token → Option Source
  | [.word w] =>
    if w = "ENC".toList then some .enc
    else if w = "DEC".toList then some .dec
    else if w = "END".toList then some .endJob
    else if w = "RST".toList then some .rst
    else none
  | [.word w, x] =>
    if w = "KEY".toList then
      match x with
      | .text codes => some (.key codes)
      | _ => none
    else
      match readOperand x with
      | none => none
      | some n =>
        if w = "KEYPUSH".toList then some (.keypush n)
        else if w = "SETSHIFT".toList then some (.setshift n)
        else if w = "SETSEED".toList then some (.setseed n)
        else if w = "TAPADD".toList then some (.tapadd n)
        else if w = "DATA".toList then some (.data n)
        else none
  | .word w :: .mark c :: rest =>
    if w = "TAPS".toList ∧ c.toNat = 0x7B then (readList (Char.ofNat 0x7D) rest).map .taps
    else if w = "BYTES".toList ∧ c = '[' then (readList ']' rest).map .bytes
    else none
  | _ => none

/-- The words one line of assembly emits: none at all for a blank line or a comment, and `none` where the assembler
reports an error (30_encoding.md R59). -/
def assembleLine (line : List Char) : Option (List CommandWord) :=
  match lex .between line with
  | none => none
  | some [] => some []
  | some tokens =>
    match readCommand tokens with
    | some c => assemble c
    | none => none

end Sys2Proof.Machine
end

