-- ==== Sys2Proof/Safety.lean ====
section
/-! DEFINITION. What holds in every state reached from reset (10_state.md R30 to R32) and what a safe step is. -/

namespace Sys2Proof.Machine

/-- The parameter registers pass validation (44_pipeline_commands.md R100, 10_state.md R31). -/
structure State.ParametersValid (s : State) : Prop where
  key_nonempty : 1 ≤ s.klen
  key_alphabetic : ∀ a, a < s.klen → ∃ c, memRead s a = .ok c ∧ isAlpha c = true
  key_held : s.keyovf = false
  shift_least : 1 ≤ s.shift.toNat
  shift_most : s.shift.toNat ≤ 25
  seed_nonzero : s.seed ≠ 0x00
  taps_valid : s.tapbad = false

/-- The invariants of 10_state.md R30 to R32, with two of the model's own beside them: the listed key cells are exactly
`0 .. KLEN-1` (the form is log 5), and the bytes held at the output port are the last ones emitted and no more than it can
hold (log 4). -/
structure State.Inv (s : State) : Prop where
  /-- The instance is legal (00_scope.md R12). -/
  config_legal : s.config.wellFormed = true
  /-- The key is the cells `0 .. KLEN-1`, in order (10_state.md R22, log 5). -/
  key_cells : s.key.map Prod.fst = List.range s.klen
  /-- `KLEN <= KEY_MAX` (10_state.md R22). -/
  key_fits : s.klen ≤ s.config.keyMax
  /-- `KEYOVF` was set by a push onto a full buffer (10_state.md R23). -/
  overflow_full : s.keyovf = true → s.klen = s.config.keyMax
  /-- 10_state.md R30. -/
  idle_rest : s.st = .idle → s.err = 0x00 ∧ s.mode = .forward ∧ s.kidx = 0 ∧ s.lfsr = 0x00
  /-- 10_state.md R31, but for its last clause, which compares two states. -/
  run_bundle : s.st = .run → s.err = 0x00 ∧ s.ParametersValid ∧ s.kidx < s.klen
  /-- 10_state.md R32 and 60_exceptions.md R128: `ERR` is `E_PROTO` alone, `E_ILLEGAL` alone, or some of bits 0 to 5. -/
  fault_cause : s.st = .fault → s.err ≠ 0x00 ∧ (s.err = 0x40 ∨ s.err = 0x80 ∨ s.err &&& 0xC0 = 0x00)
  /-- The held bytes are the last bytes of `OUT` (20_memory.md R37, log 4). -/
  held_last : s.held <:+ s.out
  /-- The engine holds no more bytes than it can hold (20_memory.md R37, log 4). -/
  held_fits : s.held.length ≤ s.config.outDepth

/-- Which command is permitted in which state: the table of 44_pipeline_commands.md R99. -/
def permittedIn : Instr → EngineState → Bool
  | .keypush _, st => st == .idle
  | .setshift _, st => st == .idle
  | .setseed _, st => st == .idle
  | .tapadd _, st => st == .idle
  | .enc, st => st == .idle
  | .dec, st => st == .idle
  | .data _, st => st == .run
  | .endJob, st => st == .run
  | .rst, _ => true

/-- The command that starts a job in the given mode (44_pipeline_commands.md R108). -/
def startCommand : Mode → Instr
  | .forward => .enc
  | .reverse => .dec

/-- What a job in the given mode computes: `Encrypt` or `Decrypt` (44_pipeline_commands.md R110). -/
def jobOutput (m : Mode) (order : TapOrder) (x : List Byte) (p : Bundle) : List Byte :=
  match m with
  | .forward => encrypt order x p
  | .reverse => decrypt order x p

/-- The parameter commands of a bundle in the order of 70_reset_and_hazards.md R138: key, shift, seed, tap positions. -/
def loadCommands (p : Bundle) (positions : List Byte) : List Instr :=
  p.key.map .keypush ++ [.setshift p.shift, .setseed p.seed] ++ positions.map .tapadd

/-- The commands of a job once its bundle is loaded: the start, one `DATA` per byte, `END` (70_reset_and_hazards.md R138). -/
def runCommands (m : Mode) (x : List Byte) : List Instr :=
  startCommand m :: (x.map .data ++ [.endJob])

/-- The host presenting the words of these commands one after another (20_memory.md R36). -/
def presenting (is : List Instr) : List HostEvent := is.map (fun i => .word (encode i))

/-- The tap mask `T` holds exactly these positions (10_state.md R20). -/
def isTapSet (t : Byte) (positions : List Byte) : Prop :=
  (∀ p ∈ positions, p.toNat ≤ 7) ∧ ∀ j, j < 8 → (t.getLsbD j = true ↔ ∃ p ∈ positions, p.toNat = j)

/-- The parameter registers hold the bundle `p` and no sticky flag is set (10_state.md R31). -/
structure State.Holds (s : State) (p : Bundle) : Prop where
  key : readKey s = .ok p.key
  shift : s.shift = p.shift
  seed : s.seed = p.seed
  taps : s.taps = p.taps
  keyovf : s.keyovf = false
  tapbad : s.tapbad = false

/-- Every register at its reset value: no parameter loaded, no job running (10_state.md R33). `OUT`, the ports, the host
and the instance are free. -/
def State.Cleared (s : State) : Prop :=
  s = { State.resetWith s.config with out := s.out, held := s.held, outReady := s.outReady, input := s.input }

/-- The host takes every byte at once: `out_ready` high, nothing held (70_reset_and_hazards.md R144, R147). -/
def State.HostTakesOutput (s : State) : Prop :=
  s.outReady = true ∧ s.held = [] ∧ 1 ≤ s.config.outDepth

/-- The next step transfers the word `w` and leaves `rest` to come: it stands first and the command port can take it
(20_memory.md R36; the field `input` is log 2). -/
def State.takesWord (s : State) (w : CommandWord) (rest : List HostEvent) : Prop :=
  s.input = .word w :: rest ∧ s.cmdReady = true

/-- The next step takes the pin event `e` and leaves `rest` to come: it stands first, or directly behind a word that the
command port cannot take, which goes on waiting (log 2, log 4). -/
def State.takesPin (s : State) (e : PinEvent) (rest : List HostEvent) : Prop :=
  s.input = .pin e :: rest ∨
  ∃ w later, s.cmdReady = false ∧ s.input = .word w :: .pin e :: later ∧ rest = .word w :: later

/-- A step that answers a next state: the machine does not stop. -/
def State.stepsOn (s : State) : Prop := ∃ t, step s = .next t

/-- The job ended normally or was never started: `IDLE` with no cause flag (70_reset_and_hazards.md R149). -/
def State.jobAccepted (s : State) : Bool := s.st == .idle && s.err == 0x00

/-- The output of the job is void: a fault was taken (70_reset_and_hazards.md R149). -/
def State.jobVoid (s : State) : Bool := s.st == .fault

end Sys2Proof.Machine
end

