-- ==== Sys2Proof/Certificates/Slice0/Obligations.lean ====
section
/-! DEFINITION. The statements for the provers, from the numbered rules of spec/. -/

open Sys2Proof Sys2Proof.Machine

/-! Reset. -/

/-- 10_state.md R33: what State.reset and the reset pin leave in every register, and that the reset values of `KLEN`,
`SHIFT` and `SEED`, and no others, fail validation. -/
def Obligations.ResetRegisterValues : Prop :=
  ∀ t : State, (t = State.reset ∨ ∃ s, t = pinReset s) →
    t.st = .idle ∧ t.err = 0x00 ∧ t.mode = .forward ∧ t.shift = 0x00 ∧ t.seed = 0x00 ∧ t.taps = 0x00 ∧
    t.tapbad = false ∧ t.klen = 0 ∧ readKey t = .ok [] ∧ t.keyovf = false ∧ t.kidx = 0 ∧ t.lfsr = 0x00 ∧ t.out = [] ∧
    exec .enc t = .next { t with st := .fault, err := 0x01 ||| 0x08 ||| 0x10 }

/-- 70_reset_and_hazards.md R135: the reset pin, `RST`, and `END` in `RUN` leave the same registers, the reset ones; the
pin also empties `OUT` and loses a held byte. That a pin event is one step between two commands is the model's choice
(log 3), as are the fields `held`, `outReady`, `input` and `config` (log 1, log 2, log 4), that `RST` and `END` leave held
bytes (log 4), and that no key cell is listed after the three (log 5). -/
def Obligations.ResetEventsLeaveResetRegisters : Prop :=
  (∀ s rest, s.input = .pin .rst :: rest →
    step s = .next { State.resetWith s.config with outReady := s.outReady, input := rest }) ∧
  (∀ s, exec .rst s =
    .next { State.resetWith s.config with out := s.out, held := s.held, outReady := s.outReady, input := s.input }) ∧
  (∀ s, s.st = .run → exec .endJob s =
    .next { State.resetWith s.config with out := s.out, held := s.held, outReady := s.outReady, input := s.input })

/-! Encoding. -/

/-- 30_encoding.md R51, R53, R55: decoding the word of any command gives the command back, at every operand. -/
def Obligations.DecodeInvertsEncode : Prop :=
  ∀ i : Instr, i.wellFormed = true → decode (encode i) = .ok i

/-- 30_encoding.md R54, R55: a legal word is the word of the command it decodes to; no bit of it is ignored. -/
def Obligations.EncodeInvertsDecode : Prop :=
  ∀ (w : CommandWord) (i : Instr), decode w = .ok i → i.wellFormed = true ∧ encode i = w

/-- 30_encoding.md R53: each row's match and mask, the operand taken whole, the rows pairwise disjoint, and `op[0]` of
`ENC` and `DEC` being the bit each writes to `MODE`. -/
def Obligations.OpcodeMapMatchAndMask : Prop :=
  (∀ (w : CommandWord) (x : Byte), decode w = .ok (.keypush x) ↔ (w &&& 0xFF00 = 0x0100 ∧ x = w.setWidth 8)) ∧
  (∀ (w : CommandWord) (x : Byte), decode w = .ok (.setshift x) ↔ (w &&& 0xFF00 = 0x0200 ∧ x = w.setWidth 8)) ∧
  (∀ (w : CommandWord) (x : Byte), decode w = .ok (.setseed x) ↔ (w &&& 0xFF00 = 0x0300 ∧ x = w.setWidth 8)) ∧
  (∀ (w : CommandWord) (x : Byte), decode w = .ok (.tapadd x) ↔ (w &&& 0xFF00 = 0x0400 ∧ x = w.setWidth 8)) ∧
  (∀ w : CommandWord, decode w = .ok .enc ↔ w &&& 0xFFFF = 0x0800) ∧
  (∀ w : CommandWord, decode w = .ok .dec ↔ w &&& 0xFFFF = 0x0900) ∧
  (∀ (w : CommandWord) (x : Byte), decode w = .ok (.data x) ↔ (w &&& 0xFF00 = 0x0A00 ∧ x = w.setWidth 8)) ∧
  (∀ w : CommandWord, decode w = .ok .endJob ↔ w &&& 0xFFFF = 0x0B00) ∧
  (∀ w : CommandWord, decode w = .ok .rst ↔ w &&& 0xFFFF = 0x0F00) ∧
  (∀ w : CommandWord, (opcodeMap.filter (fun r => r.accepts w)).length ≤ 1) ∧
  (∀ (m : Mode) (s t : State), exec (startCommand m) s = .next t → t.st = .run → s.st = .idle →
    t.mode.bit = (encode (startCommand m)).extractLsb' 8 1)

/-- 30_encoding.md R54, R56, 60_exceptions.md R124: which words are illegal, and what executing one does in each state. -/
def Obligations.IllegalWords : Prop :=
  (∀ w : CommandWord, (∃ e, decode w = .error e) ↔
    ((w.extractLsb' 8 8).toNat ∈ [0x00, 0x05, 0x06, 0x07, 0x0C, 0x0D, 0x0E] ∨ 0x10 ≤ (w.extractLsb' 8 8).toNat ∨
     ((w.extractLsb' 8 8).toNat ∈ [0x08, 0x09, 0x0B, 0x0F] ∧ w.setWidth 8 ≠ 0x00#8))) ∧
  (∀ (s : State) (w : CommandWord) (e : IllegalWord), decode w = .error e →
    (s.st ≠ .fault → takeWord w s = .next { s with st := .fault, err := 0x80 }) ∧
    (s.st = .fault → takeWord w s = .next s))

/-- 30_encoding.md R53, R56: a few words written out from the encoding table decode as it says. -/
def Obligations.SampleWordsDecode : Prop :=
  decode 0x0141 = .ok (.keypush 0x41) ∧ decode 0x0203 = .ok (.setshift 3) ∧ decode 0x03B5 = .ok (.setseed 0xB5) ∧
  decode 0x0408 = .ok (.tapadd 8) ∧ decode 0x0800 = .ok .enc ∧ decode 0x0900 = .ok .dec ∧
  decode 0x0AFF = .ok (.data 255) ∧ decode 0x0B00 = .ok .endJob ∧ decode 0x0F00 = .ok .rst ∧
  (∃ e, decode 0x0000 = .error e) ∧ (∃ e, decode 0xFFFF = .error e) ∧ (∃ e, decode 0x0F01 = .error e)

/-- 30_encoding.md R60 to R62: what the three pseudo-instructions expand to, with the spec's examples. -/
def Obligations.PseudoInstructionsExpand : Prop :=
  (∀ codes : List Nat, codes.all printableCode = true →
    assemble (.key codes) = some (codes.map (fun c => 0x0100 ||| BitVec.ofNat 16 c))) ∧
  (∀ positions : List Nat, positions.all operandFits = true →
    assemble (.taps positions) = some (positions.map (fun p => 0x0400 ||| BitVec.ofNat 16 p))) ∧
  (∀ values : List Nat, values.all operandFits = true →
    assemble (.bytes values) = some (values.map (fun b => 0x0A00 ||| BitVec.ofNat 16 b))) ∧
  assembleLine "KEY \"AB\"".toList = some [0x0141, 0x0142] ∧
  assembleLine "BYTES [104, 105]".toList = some [0x0A68, 0x0A69] ∧
  assemble (.taps [0, 2, 3, 4]) = some [0x0400, 0x0402, 0x0403, 0x0404]

/-! The step. -/

/-- 20_memory.md R36, 44_pipeline_commands.md R99: when the command port can take the presented word, the step transfers it
and consumes it; when the word decodes to a command, the step is that command's meaning. The field `input` is the model's
choice (log 2). -/
def Obligations.StepRunsDecodedCommand : Prop :=
  ∀ (s : State) (w : CommandWord) (rest : List HostEvent), s.input = .word w :: rest → s.cmdReady = true →
    step s = takeWord w { s with input := rest } ∧
    ∀ i : Instr, decode w = .ok i → i.wellFormed = true ∧ step s = exec i { s with input := rest }

/-- 44_pipeline_commands.md R99: the order of tests for one transferred word, and the state each command leads to. What
becomes of `held` and of the key cells at `RST` and `END` is left free here (log 4, log 5). -/
def Obligations.StepOrderOfTests : Prop :=
  ∀ (s : State) (w : CommandWord),
    (decode w = .ok .rst → ∃ t, takeWord w s = .next t ∧ t = { State.resetWith s.config with
        key := t.key, out := s.out, held := t.held, outReady := s.outReady, input := s.input }) ∧
    (decode w ≠ .ok .rst → s.st = .fault → takeWord w s = .next s) ∧
    (s.st ≠ .fault → ∀ e, decode w = .error e → takeWord w s = .next { s with st := .fault, err := 0x80 }) ∧
    (s.st ≠ .fault → ∀ i, decode w = .ok i → permittedIn i s.st = false →
      takeWord w s = .next { s with st := .fault, err := 0x40 }) ∧
    (s.st ≠ .fault → ∀ i, decode w = .ok i → permittedIn i s.st = true → takeWord w s = exec i s ∧
      ∀ t, exec i s = .next t →
        match i with
        | .keypush _ => s.st = .idle ∧ t.st = .idle
        | .setshift _ => s.st = .idle ∧ t.st = .idle
        | .setseed _ => s.st = .idle ∧ t.st = .idle
        | .tapadd _ => s.st = .idle ∧ t.st = .idle
        | .enc => s.st = .idle ∧ (s.ParametersValid → t.st = .run) ∧
            (¬ s.ParametersValid → t = { s with st := .fault, err := t.err } ∧ t.err ≠ 0x00)
        | .dec => s.st = .idle ∧ (s.ParametersValid → t.st = .run) ∧
            (¬ s.ParametersValid → t = { s with st := .fault, err := t.err } ∧ t.err ≠ 0x00)
        | .data _ => s.st = .run ∧ t.st = .run ∧ ∃ y, t.out = s.out ++ [y]
        | .endJob => s.st = .run ∧ t = { State.resetWith s.config with
            key := t.key, out := s.out, held := t.held, outReady := s.outReady, input := s.input }
        | .rst => t = { State.resetWith s.config with
            key := t.key, out := s.out, held := t.held, outReady := s.outReady, input := s.input })

/-- 60_exceptions.md R134: with no command presented the engine holds its state. That nothing presented is the empty
`input` is the model's choice (log 2). -/
def Obligations.NothingPresentedHoldsState : Prop :=
  ∀ s : State, s.input = [] → step s = .next s

/-! The parameter commands. -/

/-- 40_parameter_commands.md R64: `KEYPUSH` stores one character at index `KLEN` when there is room, changing no other cell
and no other register; on a full buffer it sets `KEYOVF` alone; in `RUN` it is refused; no command but `END` and `RST`
removes or replaces a character; an empty key, a character that is not alphabetic and an overflow are found by `ENC`. -/
def Obligations.KeypushAppendsCharacter : Prop :=
  (∀ c : Byte, decode (0x01#8 ++ c) = .ok (.keypush c)) ∧
  (∀ (c : Byte) (s : State), s.st = .idle → s.klen < s.config.keyMax →
    ∃ t, exec (.keypush c) s = .next t ∧ t = { s with key := t.key, klen := s.klen + 1 } ∧
      memRead t s.klen = .ok c ∧ ∀ a, a ≠ s.klen → memRead t a = memRead s a) ∧
  (∀ (c : Byte) (s : State), s.st = .idle → ¬ s.klen < s.config.keyMax →
    exec (.keypush c) s = .next { s with keyovf := true }) ∧
  (∀ (c : Byte) (s : State), s.st = .run → exec (.keypush c) s = .next { s with st := .fault, err := 0x40 }) ∧
  (∀ (i : Instr) (s t : State), exec i s = .next t → i ≠ .endJob → i ≠ .rst →
    s.klen ≤ t.klen ∧ ∀ a, a < s.klen → memRead t a = memRead s a) ∧
  (∀ s t : State, s.st = .idle → exec .enc s = .next t →
    (s.klen = 0 → t.st = .fault ∧ t.err.getLsbD 0 = true) ∧
    ((∃ a c, a < s.klen ∧ memRead s a = .ok c ∧ isAlpha c = false) → t.st = .fault ∧ t.err.getLsbD 1 = true) ∧
    (s.keyovf = true → t.st = .fault ∧ t.err.getLsbD 2 = true))

/-- 40_parameter_commands.md R65: `SETSHIFT` replaces `SHIFT` and nothing else; in `RUN` it is refused; a value outside
`[1,25]` is stored and fails validation later. -/
def Obligations.SetshiftReplacesShift : Prop :=
  (∀ v : Byte, decode (0x02#8 ++ v) = .ok (.setshift v)) ∧
  (∀ (v : Byte) (s : State), s.st = .idle → exec (.setshift v) s = .next { s with shift := v }) ∧
  (∀ (v : Byte) (s : State), s.st = .run → exec (.setshift v) s = .next { s with st := .fault, err := 0x40 }) ∧
  (∀ (v : Byte) (s t : State), s.st = .idle → v.toNat = 0 ∨ 26 ≤ v.toNat → exec .enc { s with shift := v } = .next t →
    t.st = .fault ∧ t.err.getLsbD 3 = true)

/-- 40_parameter_commands.md R66: `SETSEED` replaces `SEED` and nothing else, `LFSR` included; in `RUN` it is refused; 0 is
stored and fails validation later. -/
def Obligations.SetseedReplacesSeed : Prop :=
  (∀ v : Byte, decode (0x03#8 ++ v) = .ok (.setseed v)) ∧
  (∀ (v : Byte) (s : State), s.st = .idle → exec (.setseed v) s = .next { s with seed := v }) ∧
  (∀ (v : Byte) (s : State), s.st = .run → exec (.setseed v) s = .next { s with st := .fault, err := 0x40 }) ∧
  (∀ s t : State, s.st = .idle → exec .enc { s with seed := 0x00 } = .next t →
    t.st = .fault ∧ t.err.getLsbD 4 = true)

/-- 40_parameter_commands.md R67: `TAPADD p` sets bit `p` of `TAPS` for `p <= 7`, else `TAPBAD`, and nothing else; in `RUN`
it is refused; no command but `END` and `RST` removes a position; `TAPBAD` fails validation later, and no tap set does. -/
def Obligations.TapaddAddsPosition : Prop :=
  (∀ p : Byte, decode (0x04#8 ++ p) = .ok (.tapadd p)) ∧
  (∀ (p : Byte) (s : State), s.st = .idle → p.toNat ≤ 7 →
    ∃ t, exec (.tapadd p) s = .next t ∧ t = { s with taps := t.taps } ∧
      ∀ j, j < 8 → (t.taps.getLsbD j = true ↔ s.taps.getLsbD j = true ∨ j = p.toNat)) ∧
  (∀ (p : Byte) (s : State), s.st = .idle → 7 < p.toNat → exec (.tapadd p) s = .next { s with tapbad := true }) ∧
  (∀ (p : Byte) (s : State), s.st = .run → exec (.tapadd p) s = .next { s with st := .fault, err := 0x40 }) ∧
  (∀ (i : Instr) (s t : State) (j : Nat), exec i s = .next t → i ≠ .endJob → i ≠ .rst → s.taps.getLsbD j = true →
    t.taps.getLsbD j = true) ∧
  (∀ s t : State, s.st = .idle → s.tapbad = true → exec .enc s = .next t → t.st = .fault ∧ t.err.getLsbD 5 = true) ∧
  (∀ (s t : State) (v : Byte), s.st = .idle → exec .enc s = .next t → exec .enc { s with taps := v } =
    .next { t with taps := v })

/-! Faults. -/

/-- 60_exceptions.md R123: every legal command in a state that does not permit it raises `E_PROTO`. -/
def Obligations.ProtocolFault : Prop :=
  (∀ (s : State) (x : Byte) (i : Instr), s.st = .run →
    i ∈ [.keypush x, .setshift x, .setseed x, .tapadd x, .enc, .dec] →
    exec i s = .next { s with st := .fault, err := 0x40 }) ∧
  (∀ (s : State) (x : Byte) (i : Instr), s.st = .idle → i ∈ [.data x, .endJob] →
    exec i s = .next { s with st := .fault, err := 0x40 })

/-- 60_exceptions.md R129: in `FAULT` every word but `RST` is consumed and discarded. The field `input` is the model's choice
(log 2). -/
def Obligations.FaultStateDiscardsWords : Prop :=
  ∀ (s : State) (w : CommandWord) (rest : List HostEvent), s.st = .fault → s.input = .word w :: rest →
    s.cmdReady = true → decode w ≠ .ok .rst → step s = .next { s with input := rest }

/-- 60_exceptions.md R126: a fault is precise: the faulting word writes nothing but `ST` and `ERR`, with a flag that is not
empty, and no later word but `RST` has any effect. -/
def Obligations.FaultsArePrecise : Prop :=
  ∀ (w : CommandWord) (s t : State), takeWord w s = .next t → s.st ≠ .fault → t.st = .fault →
    t = { s with st := .fault, err := t.err } ∧ t.err ≠ 0x00 ∧
    ∀ later : CommandWord, decode later ≠ .ok .rst → takeWord later t = .next t

/-- 60_exceptions.md R128: which flags one word raises: `E_ILLEGAL` alone for an illegal word, `E_PROTO` alone for a command
that is not permitted, and for a permitted `ENC` or `DEC` some of bits 0 to 5. -/
def Obligations.FaultFlagsByCause : Prop :=
  ∀ (w : CommandWord) (s t : State), takeWord w s = .next t → s.st ≠ .fault → t.st = .fault →
    match decode w with
    | .error _ => t.err = 0x80
    | .ok i =>
      (permittedIn i s.st = false ∧ t.err = 0x40) ∨
      (permittedIn i s.st = true ∧ (i = .enc ∨ i = .dec) ∧ t.err ≠ 0x00 ∧ t.err &&& 0xC0 = 0x00)

/-- 10_state.md R32, 60_exceptions.md R129, R130: in `FAULT` nothing changes until the engine takes `RST` or the reset pin:
three cases, by the event the step takes. How the step takes an event, the fields `held`, `outReady` and `input`, and that
no key cell is listed after a return are the model's choices (log 2, log 3, log 4, log 5). -/
def Obligations.FaultStateChangesNothing : Prop :=
  ∀ s t : State, s.st = .fault → step s = .next t →
    (∀ w rest, s.takesWord w rest → decode w = .ok .rst →
      t = { State.resetWith s.config with out := s.out, held := s.held, outReady := s.outReady, input := rest }) ∧
    (∀ rest, s.takesPin .rst rest → t = { State.resetWith s.config with outReady := s.outReady, input := rest }) ∧
    ((∀ w rest, s.takesWord w rest → decode w ≠ .ok .rst) → (∀ rest, ¬ s.takesPin .rst rest) →
      t = { s with held := t.held, outReady := t.outReady, input := t.input })

/-! Starting a job. -/

/-- 44_pipeline_commands.md R100: validation makes all six checks every time and each failing one sets its flag; with no
flag set `ENC` and `DEC` start the job, with any set they raise them all in one fault. -/
def Obligations.ValidationReportsEveryFailure : Prop :=
  ∀ s : State, s.st = .idle → (∀ a, a < s.klen → ∃ c, memRead s a = .ok c) →
    ∃ f : Byte,
      (f.getLsbD 0 = true ↔ s.klen = 0) ∧
      (f.getLsbD 1 = true ↔ ∃ a c, a < s.klen ∧ memRead s a = .ok c ∧ isAlpha c = false) ∧
      (f.getLsbD 2 = true ↔ s.keyovf = true) ∧
      (f.getLsbD 3 = true ↔ s.shift.toNat < 1 ∨ 25 < s.shift.toNat) ∧
      (f.getLsbD 4 = true ↔ s.seed = 0x00) ∧
      (f.getLsbD 5 = true ↔ s.tapbad = true) ∧
      f.getLsbD 6 = false ∧ f.getLsbD 7 = false ∧
      ∀ m : Mode,
        (f = 0x00 → exec (startCommand m) s = .next { s with mode := m, kidx := 0, lfsr := s.seed, st := .run }) ∧
        (f ≠ 0x00 → exec (startCommand m) s = .next { s with st := .fault, err := f })

/-- 44_pipeline_commands.md R101: `ENC` with valid parameters starts a forward job; in `RUN` it is refused; with invalid
parameters it writes nothing but `ST` and some of bits 0 to 5 of `ERR`. -/
def Obligations.EncStartsForwardJob : Prop :=
  decode 0x0800 = .ok .enc ∧
  (∀ s : State, s.st = .idle → s.ParametersValid →
    exec .enc s = .next { s with mode := .forward, kidx := 0, lfsr := s.seed, st := .run }) ∧
  (∀ s : State, s.st = .run → exec .enc s = .next { s with st := .fault, err := 0x40 }) ∧
  (∀ s : State, s.st = .idle → (∀ a, a < s.klen → ∃ c, memRead s a = .ok c) → ¬ s.ParametersValid →
    ∃ f : Byte, f ≠ 0x00 ∧ f &&& 0xC0 = 0x00 ∧ exec .enc s = .next { s with st := .fault, err := f })

/-- 44_pipeline_commands.md R102: `DEC` is `ENC` but for `MODE <- 1`. -/
def Obligations.DecStartsReverseJob : Prop :=
  decode 0x0900 = .ok .dec ∧
  (∀ s : State, s.st = .idle → s.ParametersValid →
    exec .dec s = .next { s with mode := .reverse, kidx := 0, lfsr := s.seed, st := .run }) ∧
  (∀ s : State, s.st = .run → exec .dec s = .next { s with st := .fault, err := 0x40 }) ∧
  (∀ s : State, s.st = .idle → (∀ a, a < s.klen → ∃ c, memRead s a = .ok c) → ¬ s.ParametersValid →
    ∃ f : Byte, f ≠ 0x00 ∧ f &&& 0xC0 = 0x00 ∧ exec .dec s = .next { s with st := .fault, err := f } ∧
      exec .enc s = exec .dec s)

/-! Transforming a byte. -/

/-- 44_pipeline_commands.md R103, R104: `DATA b` in forward mode: the byte emitted, the advance, and the frame. What
becomes of `held` is the model's choice and stands in OutputPortTransfers (log 4). -/
def Obligations.DataForward : Prop :=
  ∀ (b c : Byte) (s : State), s.st = .run → s.mode = .forward → memRead s s.kidx = .ok c → isAlpha c = true →
    ∃ t, exec (.data b) s = .next t ∧
      t = { s with
            out := s.out ++ [mod256 ((mod256 ((b.toNat : Int) + ((c &&& 0xDF).toNat - 0x41 : Nat))).toNat + s.shift.toNat)
              ^^^ (ksByte s.config.tapOrder s.lfsr s.taps).2]
            lfsr := (ksByte s.config.tapOrder s.lfsr s.taps).1
            kidx := if s.kidx + 1 = s.klen then 0 else s.kidx + 1
            held := t.held }

/-- 44_pipeline_commands.md R103, R105: `DATA b` in reverse mode: the byte emitted, the advance, and the frame. What
becomes of `held` is the model's choice and stands in OutputPortTransfers (log 4). -/
def Obligations.DataReverse : Prop :=
  ∀ (b c : Byte) (s : State), s.st = .run → s.mode = .reverse → memRead s s.kidx = .ok c → isAlpha c = true →
    ∃ t, exec (.data b) s = .next t ∧
      t = { s with
            out := s.out ++ [mod256 ((mod256 (((b ^^^ (ksByte s.config.tapOrder s.lfsr s.taps).2).toNat : Int)
              - s.shift.toNat)).toNat - ((c &&& 0xDF).toNat - 0x41 : Nat))]
            lfsr := (ksByte s.config.tapOrder s.lfsr s.taps).1
            kidx := if s.kidx + 1 = s.klen then 0 else s.kidx + 1
            held := t.held }

/-- 44_pipeline_commands.md R108, R109, 43_lfsr_stage.md R94: the advance of `LFSR` and `KIDX` depends on neither `MODE` nor
the byte. -/
def Obligations.AdvanceIgnoresModeAndByte : Prop :=
  ∀ (b b' : Byte) (m : Mode) (s t t' : State), s.st = .run → exec (.data b) s = .next t →
    exec (.data b') { s with mode := m } = .next t' → t'.lfsr = t.lfsr ∧ t'.kidx = t.kidx

/-- 00_scope.md section 5: `mod256(n)` is the remainder in `[0,255]`, negative `n` included. -/
def Obligations.Mod256IsRemainder : Prop :=
  (∀ n : Int, ((mod256 n).toNat : Int) = n % 256) ∧ mod256 260 = 4 ∧ mod256 (-1) = 255 ∧ mod256 (-22) = 234

/-- 41_vigenere_stage.md R74 to R76, 42_caesar_stage.md R80, R81: the adders of both stages, with the carry and the borrow
discarded, and the corner cases of the rules. -/
def Obligations.StageAddersWrap : Prop :=
  (∀ (b : Byte) (k : Nat), (vigFwd b k).toNat = (b.toNat + k) % 256 ∧
    ((vigRev b k).toNat : Int) = ((b.toNat : Int) - k) % 256 ∧
    vigFwd b k = b + BitVec.ofNat 8 k ∧ vigRev b k = b + ~~~(BitVec.ofNat 8 k) + 1) ∧
  (∀ b s : Byte, (caeFwd b s).toNat = (b.toNat + s.toNat) % 256 ∧
    ((caeRev b s).toNat : Int) = ((b.toNat : Int) - s.toNat) % 256 ∧
    caeFwd b s = b + s ∧ caeRev b s = b + ~~~s + 1) ∧
  vigFwd 250 25 = 19 ∧ vigFwd 255 1 = 0 ∧ vigRev 3 25 = 234 ∧ vigRev 0 1 = 255 ∧ caeFwd 65 3 = 68 ∧ caeFwd 231 25 = 0 ∧
  caeRev 68 3 = 65 ∧ caeRev 0 25 = 231 ∧ caeRev 24 25 = 255

/-- 41_vigenere_stage.md R69, R70: which codes are alphabetic, and their key values, whatever the case. -/
def Obligations.KeyValueOfLetters : Prop :=
  (∀ c : Byte, isAlpha c = true ↔ (0x41 ≤ c.toNat ∧ c.toNat ≤ 0x5A) ∨ (0x61 ≤ c.toNat ∧ c.toNat ≤ 0x7A)) ∧
  (∀ c : Byte, isAlpha c = true →
    keyValue c + 0x41 = (c &&& 0xDF).toNat ∧ keyValue c ≤ 25 ∧ keyValue (c ^^^ 0x20) = keyValue c) ∧
  keyValue 0x41 = 0 ∧ keyValue 0x62 = 1 ∧ keyValue 0x4D = 12 ∧ keyValue 0x7A = 25

/-- 41_vigenere_stage.md R72: the indexer started at 0 and advanced `i` times stands at `i mod KLEN`. -/
def Obligations.KeyIndexIsPositionModLength : Prop :=
  ∀ klen i : Nat, 1 ≤ klen → (fun kidx => advanceKidx kidx klen)^[i] 0 = i % klen

/-- 43_lfsr_stage.md R87, R89, R90: one step of the register, bit by bit. -/
def Obligations.LfsrStepBits : Prop :=
  ∀ (o : TapOrder) (r t : Byte),
    (lfsrStep o r t).2 = r.getLsbD 0 ∧ (lfsrStep o r t).1.getLsbD 7 = feedback o r t ∧
    ∀ j, j < 7 → (lfsrStep o r t).1.getLsbD j = r.getLsbD (j + 1)

/-- 43_lfsr_stage.md R88: the feedback bit is 1 when an odd number of tapped register bits are 1, the two closed forms,
and the rule's example. -/
def Obligations.FeedbackClosedForms : Prop :=
  (∀ r t : Byte, feedback .stored r t =
    decide ((List.range 8).countP (fun p => t.getLsbD p && r.getLsbD (7 - p)) % 2 = 1)) ∧
  (∀ r t : Byte, feedback .significance r t =
    decide ((List.range 8).countP (fun p => t.getLsbD p && r.getLsbD p) % 2 = 1)) ∧
  (∀ r t : Byte, feedback .stored r t = parity (r &&& bitrev8 t)) ∧
  (∀ r t : Byte, feedback .significance r t = parity (r &&& t)) ∧
  (∀ (o : TapOrder) (r : Byte), feedback o r 0x00 = false) ∧
  feedback .stored 0xDA 0xB8 = false ∧ feedback .significance 0xDA 0xB8 = true ∧ Config.default.tapOrder = .stored

/-- 43_lfsr_stage.md R91, R92: a keystream byte is eight consecutive steps, the first output bit its bit 7. -/
def Obligations.KeystreamBytePacksEightSteps : Prop :=
  ∀ (o : TapOrder) (r t : Byte),
    (ksByte o r t).1 = (fun q => (lfsrStep o q t).1)^[8] r ∧
    ∀ n, n < 8 → (ksByte o r t).2.getLsbD (7 - n) = (lfsrStep o ((fun q => (lfsrStep o q t).1)^[n] r) t).2

/-- 43_lfsr_stage.md R97: the first keystream byte of a job is the seed with its bits reversed, whatever the taps. -/
def Obligations.FirstKeystreamByteIsReversedSeed : Prop :=
  (∀ (o : TapOrder) (seed t : Byte) (j : Nat), j < 8 → (ksByte o seed t).2.getLsbD j = seed.getLsbD (7 - j)) ∧
  (∀ (m : Mode) (s t : State), s.st = .idle → s.ParametersValid → exec (startCommand m) s = .next t →
    (ksByte t.config.tapOrder t.lfsr t.taps).2 = s.seed.reverse)

/-- 43_lfsr_stage.md R95, R96: the zero register is a fixed point for every tap set and gives keystream bytes of zero; the
empty tap set empties the register in one byte. -/
def Obligations.DegenerateRegisters : Prop :=
  (∀ (o : TapOrder) (t : Byte), lfsrStep o 0x00 t = (0x00, false) ∧ ksByte o 0x00 t = (0x00, 0x00)) ∧
  (∀ (o : TapOrder) (r : Byte), (ksByte o r 0x00).1 = 0x00)

/-- 44_pipeline_commands.md R109: after `n` bytes the register stands `8n` steps after the seed. -/
def Obligations.RegisterAfterBytes : Prop :=
  ∀ (o : TapOrder) (seed t : Byte) (n : Nat),
    (fun r => (ksByte o r t).1)^[n] seed = (fun r => (lfsrStep o r t).1)^[8 * n] seed

/-! The stages and the job on sequences. -/

/-- 41_vigenere_stage.md R77, R78: `VigApply` position by position, its length, and its inverse law. -/
def Obligations.VigenereStageOnSequences : Prop :=
  (∀ (x key : List Byte) (e : Bool), (vigApply x key e).length = x.length) ∧
  (∀ (x key : List Byte) (e : Bool) (i : Nat) (b c : Byte), x[i]? = some b → key[i % key.length]? = some c →
    (vigApply x key e)[i]? = some (if e then vigFwd b (keyValue c) else vigRev b (keyValue c))) ∧
  (∀ (b : Byte) (k : Nat), vigRev (vigFwd b k) k = b ∧ vigFwd (vigRev b k) k = b) ∧
  (∀ x key : List Byte, vigApply (vigApply x key true) key false = x) ∧
  vigApply [104, 105] [0x41, 0x42] true = [104, 106]

/-- 42_caesar_stage.md R83, R84: `CaesarApply` position by position, and its inverse law. -/
def Obligations.CaesarStageOnSequences : Prop :=
  (∀ (x : List Byte) (s : Byte) (e : Bool) (i : Nat),
    (caesarApply x s e)[i]? = (x[i]?).map (fun b => if e then caeFwd b s else caeRev b s)) ∧
  (∀ b s : Byte, caeRev (caeFwd b s) s = b ∧ caeFwd (caeRev b s) s = b) ∧
  (∀ (x : List Byte) (s : Byte), caesarApply (caesarApply x s true) s false = x) ∧
  caesarApply [65] 3 true = [68] ∧ caesarApply [68] 3 false = [65]

/-- 43_lfsr_stage.md R93, R98: `StreamApply` position by position, its length, and that it is its own inverse. -/
def Obligations.StreamStageOnSequences : Prop :=
  (∀ (o : TapOrder) (x : List Byte) (seed t : Byte), (streamApply o x seed t).length = x.length) ∧
  (∀ (o : TapOrder) (x : List Byte) (seed t b : Byte) (i : Nat), x[i]? = some b →
    (streamApply o x seed t)[i]? = some (b ^^^ (ksByte o ((fun r => (ksByte o r t).1)^[i] seed) t).2)) ∧
  (∀ (o : TapOrder) (x : List Byte) (seed t : Byte), streamApply o (streamApply o x seed t) seed t = x) ∧
  (∀ o : TapOrder, streamApply o [0] 1 0x1D = [128])

/-- 70_reset_and_hazards.md R148: the two adders of the forward path may be merged into one. -/
def Obligations.ForwardAddersMerge : Prop :=
  ∀ (b s : Byte) (k : Nat), caeFwd (vigFwd b k) s = mod256 ((b.toNat : Int) + k + s.toNat)

/-- 44_pipeline_commands.md R110, R113: every stage and both pipelines preserve the length. -/
def Obligations.PipelinePreservesLength : Prop :=
  ∀ (o : TapOrder) (x : List Byte) (p : Bundle),
    (encrypt o x p).length = x.length ∧ (decrypt o x p).length = x.length

/-- 44_pipeline_commands.md R111, for any way the parameters came to be loaded: a job started in `IDLE` on registers that
hold a valid bundle emits exactly what `Encrypt` or `Decrypt` gives, and `END` leaves the reset registers. The host takes
every byte (log 4), the words stand in `input` (log 2), and `END` leaves no key cell listed (log 5). -/
def Obligations.RunningJobComputesPipeline : Prop :=
  ∀ (m : Mode) (p : Bundle) (x : List Byte) (s : State) (rest : List HostEvent),
    p.valid = true → s.st = .idle → s.Holds p → s.HostTakesOutput →
    s.input = presenting (runCommands m x) ++ rest →
    Sys2Proof.core.run (runCommands m x).length s =
      .next { State.resetWith s.config with
        out := s.out ++ jobOutput m s.config.tapOrder x p, outReady := true, input := rest }

/-- 44_pipeline_commands.md R111: a whole job from the reset registers: loading a valid bundle in the order of
70_reset_and_hazards.md R138, starting, one `DATA` per byte, `END`. The host takes every byte (log 4), the words stand in
`input` (log 2), and no key cell is listed before or after (log 5). -/
def Obligations.WholeJobComputesPipeline : Prop :=
  ∀ (m : Mode) (p : Bundle) (positions x : List Byte) (s : State) (rest : List HostEvent),
    p.valid = true → isTapSet p.taps positions → p.key.length ≤ s.config.keyMax → s.Cleared → s.HostTakesOutput →
    s.input = presenting (loadCommands p positions ++ runCommands m x) ++ rest →
    Sys2Proof.core.run (loadCommands p positions ++ runCommands m x).length s =
      .next { s with out := s.out ++ jobOutput m s.config.tapOrder x p, input := rest }

/-- 44_pipeline_commands.md R112: the round trip, of the functions in both directions, and of the engine over two jobs. The
host takes every byte (log 4), the words stand in `input` (log 2), and no key cell is listed before or after (log 5). -/
def Obligations.RoundTrip : Prop :=
  (∀ (o : TapOrder) (x : List Byte) (p : Bundle), p.valid = true →
    decrypt o (encrypt o x p) p = x ∧ encrypt o (decrypt o x p) p = x) ∧
  (∀ (p : Bundle) (positions x : List Byte) (s : State) (rest : List HostEvent),
    p.valid = true → isTapSet p.taps positions → p.key.length ≤ s.config.keyMax → s.Cleared → s.HostTakesOutput →
    s.input = presenting ((loadCommands p positions ++ runCommands .forward x) ++
      (loadCommands p positions ++ runCommands .reverse (encrypt s.config.tapOrder x p))) ++ rest →
    Sys2Proof.core.run ((loadCommands p positions ++ runCommands .forward x) ++
        (loadCommands p positions ++ runCommands .reverse (encrypt s.config.tapOrder x p))).length s =
      .next { s with out := s.out ++ encrypt s.config.tapOrder x p ++ x, input := rest })

/-! Ending a job. -/

/-- 44_pipeline_commands.md R106: `END` in `RUN` writes the reset value to every register, the key becoming the empty
sequence, and leaves `OUT`; in `IDLE` it is refused. What becomes of `held` and of the key cells is left free here: it is the
model's choice (log 4, log 5) and stands in OutputPortTransfers and ResetEventsLeaveResetRegisters. -/
def Obligations.EndClearsEveryRegister : Prop :=
  decode 0x0B00 = .ok .endJob ∧
  (∀ s : State, s.st = .run →
    ∃ t, exec .endJob s = .next t ∧ readKey t = .ok [] ∧ t = { s with
      st := .idle, err := 0x00, mode := .forward, shift := 0x00, seed := 0x00, taps := 0x00, tapbad := false
      key := t.key, klen := 0, keyovf := false, kidx := 0, lfsr := 0x00, held := t.held }) ∧
  (∀ s : State, s.st = .idle → exec .endJob s = .next { s with st := .fault, err := 0x40 })

/-- 44_pipeline_commands.md R107: `RST` does the same writes in every state, raises nothing, and is the only command
executed in `FAULT`; its opcode with a non-zero operand is an illegal word. What becomes of `held` and of the key cells is
left free here: it is the model's choice (log 4, log 5) and stands in OutputPortTransfers and
ResetEventsLeaveResetRegisters. -/
def Obligations.RstClearsEveryRegister : Prop :=
  decode 0x0F00 = .ok .rst ∧ (∀ arg : Byte, arg ≠ 0x00 → ∃ e, decode (0x0F#8 ++ arg) = .error e) ∧
  (∀ s : State,
    ∃ t, exec .rst s = .next t ∧ readKey t = .ok [] ∧ t = { s with
      st := .idle, err := 0x00, mode := .forward, shift := 0x00, seed := 0x00, taps := 0x00, tapbad := false
      key := t.key, klen := 0, keyovf := false, kidx := 0, lfsr := 0x00, held := t.held }) ∧
  (∀ (s : State) (i : Instr), s.st = .fault → i ≠ .rst → exec i s = .next s)

/-- 44_pipeline_commands.md R114, with R101, R102 and R106: the empty job: start and `END` at once, in either mode: the start
loads `LFSR` with the seed and steps it no further, nothing is emitted, and the registers end at their reset values; with a
bad bundle the start faults. What becomes of `held` and of the key cells is the model's choice (log 4, log 5) and is left
free here. -/
def Obligations.EmptyJob : Prop :=
  (∀ (m : Mode) (s : State), s.st = .idle → s.ParametersValid →
    ∃ t u, exec (startCommand m) s = .next t ∧ t = { s with mode := m, kidx := 0, lfsr := s.seed, st := .run } ∧
      exec .endJob t = .next u ∧ u = { State.resetWith s.config with
        key := u.key, out := s.out, held := u.held, outReady := s.outReady, input := s.input }) ∧
  (∀ (m : Mode) (o : TapOrder) (p : Bundle), jobOutput m o [] p = []) ∧
  (∀ (m : Mode) (s t : State), s.st = .idle → ¬ s.ParametersValid → exec (startCommand m) s = .next t → t.st = .fault)

/-! Invariants and whole-machine rules. -/

/-- 10_state.md R30 to R33: the invariants hold right after reset, in every legal instance. The clauses of `State.Inv` on the
list of key cells, on the held bytes and on the instance rest on the model's choices (log 5, log 4, log 1). -/
def Obligations.ResetSatisfiesInvariants : Prop :=
  State.reset.Inv ∧ ∀ c : Config, c.wellFormed = true → (State.resetWith c).Inv

/-- 10_state.md R30 to R32, 20_memory.md R37: every step from a state that satisfies the invariants answers one that does.
The clauses of `State.Inv` on the held bytes (`held_last`, `held_fits`) rest on the model's choice of the output port (log
4), the clause on the list of key cells (`key_cells`) on log 5, the clause on the instance on log 1. -/
def Obligations.StepKeepsInvariants : Prop :=
  ∀ s t : State, s.Inv → step s = .next t → t.Inv

/-- 44_pipeline_commands.md R103, 20_memory.md R41, 10_state.md R22: in a state that satisfies the invariants the machine
never stops: no step reads a key cell that does not exist or holds no value. The two stops, and the clause of `State.Inv`
on the list of key cells, are the model's choice (log 5). -/
def Obligations.InvariantStatesNeverStop : Prop :=
  ∀ s : State, s.Inv → s.stepsOn

/-- 10_state.md R31, its last clause, and 70_reset_and_hazards.md R141: from one state of a running job to the next,
`MODE`, `SHIFT`, `SEED`, `TAPS`, `KEY` and `KLEN` do not change, nor do the sticky flags. -/
def Obligations.ParametersFrozenWhileRunning : Prop :=
  ∀ s t : State, step s = .next t → s.st = .run → t.st = .run →
    t.mode = s.mode ∧ t.shift = s.shift ∧ t.seed = s.seed ∧ t.taps = s.taps ∧ t.key = s.key ∧ t.klen = s.klen ∧
    t.tapbad = s.tapbad ∧ t.keyovf = s.keyovf

/-- 00_scope.md R12: the parameters of an instance never change. That they are a field of State is the model's choice
(log 1). -/
def Obligations.InstanceParametersFixed : Prop :=
  ∀ s t : State, step s = .next t → t.config = s.config

/-- 20_memory.md R34: every step keeps the key space in canonical form, and a key cell that reads otherwise after a step is
the cell at `KLEN` and the step took a `KEYPUSH` in `IDLE`, or the step took an `END` in `RUN`, an `RST` or the reset pin. The
canonical form, and that the last three leave no cell listed, are the model's choice (log 5), as is how a step takes an
event (log 2, log 3, log 4). -/
def Obligations.KeySpaceChangesOnlyByItsCommands : Prop :=
  (∀ s t : State, step s = .next t → Memory.wf s.key → Memory.wf t.key) ∧
  (∀ (s t : State) (a : Nat), step s = .next t → memRead t a ≠ memRead s a →
    s.takesPin .rst t.input ∨
    ∃ w i, s.takesWord w t.input ∧ decode w = .ok i ∧
      ((i = .endJob ∧ s.st = .run) ∨ i = .rst ∨ ((∃ c, i = .keypush c) ∧ s.st = .idle ∧ a = s.klen)))

/-- 10_state.md R21, R23: `TAPBAD` and `KEYOVF`, once set, stay set until the step takes an `END` in `RUN`, an `RST` or the
reset pin. How a step takes an event is the model's choice (log 2, log 3, log 4). -/
def Obligations.StickyFlagsStay : Prop :=
  ∀ s t : State, step s = .next t →
    (s.tapbad = true ∧ t.tapbad = false) ∨ (s.keyovf = true ∧ t.keyovf = false) →
    s.takesPin .rst t.input ∨
    ∃ w i, s.takesWord w t.input ∧ decode w = .ok i ∧ ((i = .endJob ∧ s.st = .run) ∨ i = .rst)

/-- 10_state.md R26, 20_memory.md R46: `OUT` is append-only, in three cases by the event the step takes: a `DATA` word taken in
`RUN` appends exactly one byte, the reset pin empties `OUT`, and every other step leaves it. How a step takes an event is
the model's choice (log 2, log 3, log 4). -/
def Obligations.OutIsAppendOnly : Prop :=
  ∀ s t : State, step s = .next t →
    (∀ w rest b, s.takesWord w rest → decode w = .ok (.data b) → s.st = .run → t.st = .run ∧ ∃ y, t.out = s.out ++ [y]) ∧
    (∀ rest, s.takesPin .rst rest → t.out = []) ∧
    ((∀ w rest b, s.takesWord w rest → decode w = .ok (.data b) → s.st ≠ .run) → (∀ rest, ¬ s.takesPin .rst rest) →
      t.out = s.out)

/-! The ports. -/

/-- 20_memory.md R38, 10_state.md R15, R28: the status port carries `ST` in its encoding, `ERR`, and `fault`. -/
def Obligations.StatusPortCarriesState : Prop :=
  ∀ s : State, s.statusPort.err = s.err ∧ (s.statusPort.fault = true ↔ s.st = .fault) ∧
    (s.statusPort.st = 0 ↔ s.st = .idle) ∧ (s.statusPort.st = 1 ↔ s.st = .run) ∧ (s.statusPort.st = 2 ↔ s.st = .fault)

/-- 20_memory.md R37: the output port. A byte emitted while `out_ready` is high is taken at once, one emitted while it is
low is held after those already held; raising `out_ready` takes them all, one can be taken alone, and no other command
touches what is held. How the two pin events act, and that `END` and `RST` leave held bytes, is the model's choice (log 4). -/
def Obligations.OutputPortTransfers : Prop :=
  (∀ (b : Byte) (s t : State), s.st = .run → exec (.data b) s = .next t →
    ∃ y, t.out = s.out ++ [y] ∧ (s.outReady = true → t.held = []) ∧ (s.outReady = false → t.held = s.held ++ [y])) ∧
  (∀ (i : Instr) (s t : State), exec i s = .next t → (s.st ≠ .run ∨ ∀ b, i ≠ .data b) → t.held = s.held) ∧
  (∀ (s : State) (rest : List HostEvent), s.input = .pin (.outReady true) :: rest →
    step s = .next { s with input := rest, outReady := true, held := [] }) ∧
  (∀ (s : State) (rest : List HostEvent), s.input = .pin (.outReady false) :: rest →
    step s = .next { s with input := rest, outReady := false }) ∧
  (∀ (s : State) (rest : List HostEvent), s.input = .pin .takeByte :: rest →
    step s = .next { s with input := rest, held := s.held.tail })

/-- 70_reset_and_hazards.md R144, 20_memory.md R37: a word the command port cannot take waits, and with no pin event next
the state stays as it is, `ST` included; a pin event next acts while the word waits. The order in which they act is the
model's choice (log 4). -/
def Obligations.StalledCommandPortWaits : Prop :=
  (∀ (s : State) (w : CommandWord), s.cmdReady = false → s.input = [.word w] → step s = .next s) ∧
  (∀ (s : State) (w w' : CommandWord) (rest : List HostEvent), s.cmdReady = false →
    s.input = .word w :: .word w' :: rest → step s = .next s) ∧
  (∀ (s : State) (w : CommandWord) (e : PinEvent) (rest : List HostEvent), s.cmdReady = false →
    s.input = .word w :: .pin e :: rest → step s = .next (applyPin e { s with input := .word w :: rest }))

/-- 70_reset_and_hazards.md R144: back-pressure changes no value: with other bytes held and another level of `out_ready` a
command has the same effect on every register and on `OUT`. -/
def Obligations.BackPressureChangesNoValue : Prop :=
  ∀ (i : Instr) (s t : State) (held : List Byte) (level : Bool), exec i s = .next t →
    ∃ t', exec i { s with held := held, outReady := level } = .next t' ∧
      t' = { t with held := t'.held, outReady := level }
end

