-- ==== Sys2Proof/Laws/Decode.lean ====
section
/-! SUPPORT. The fields of a command word and what it takes to match a row of the opcode map. -/

namespace Sys2Proof

/-- A word is its two fields, `op` high (30_encoding.md R51). -/
theorem word_eq_fields (w : CommandWord) : w = (opField w ++ argField w : BitVec (8 + 8)) := by
  apply BitVec.eq_of_getLsbD_eq
  intro j hj
  simp only [opField, argField, BitVec.getLsbD_append, BitVec.getLsbD_extractLsb']
  by_cases h : j < 8
  · simp [h]
  · rw [if_neg h, show 8 + (j - 8) = j by omega]
    simp [show j - 8 < 8 by omega]

@[simp] theorem opField_append (op arg : Byte) : opField (op ++ arg : BitVec (8 + 8)) = op := by
  apply BitVec.eq_of_getLsbD_eq
  intro j hj
  simp only [opField, BitVec.getLsbD_extractLsb', BitVec.getLsbD_append]
  simp [hj]

@[simp] theorem argField_append (op arg : Byte) : argField (op ++ arg : BitVec (8 + 8)) = arg := by
  apply BitVec.eq_of_getLsbD_eq
  intro j hj
  simp only [argField, BitVec.getLsbD_extractLsb', BitVec.getLsbD_append]
  simp [hj]

theorem argField_eq_setWidth (w : CommandWord) : argField w = w.setWidth 8 := by
  apply BitVec.eq_of_getLsbD_eq
  intro j hj
  simp [argField, hj]

/-- The mask of a row with an operand keeps the `op` field. -/
theorem and_opMask (w : CommandWord) : w &&& 0xFF00 = (opField w ++ 0x00#8 : BitVec (8 + 8)) := by
  apply BitVec.eq_of_getLsbD_eq
  intro j hj
  simp only [opField, BitVec.getLsbD_and, BitVec.getLsbD_append, BitVec.getLsbD_extractLsb']
  by_cases h : j < 8
  · interval_cases j <;> simp
  · have hm : BitVec.getLsbD (0xFF00 : CommandWord) j = true := by interval_cases j <;> rfl
    rw [if_neg h, show 8 + (j - 8) = j by omega, hm]
    simp [show j - 8 < 8 by omega]

/-- A row with an operand is matched by its opcode alone. -/
theorem opMask_iff (w : CommandWord) (op : Byte) :
    w &&& 0xFF00 = (op ++ 0x00#8 : BitVec (8 + 8)) ↔ opField w = op := by
  rw [and_opMask]
  constructor
  · intro h
    have := congrArg opField h
    simpa using this
  · rintro rfl
    rfl

/-- The mask of a row without an operand keeps the whole word. -/
theorem and_fullMask (w : CommandWord) : w &&& 0xFFFF = w := by
  apply BitVec.eq_of_getLsbD_eq
  intro j hj
  have hm : BitVec.getLsbD (0xFFFF : CommandWord) j = true := by interval_cases j <;> rfl
  rw [BitVec.getLsbD_and, hm, Bool.and_true]

/-- A row without an operand is matched by its opcode and a zero operand. -/
theorem fullMask_iff (w : CommandWord) (op : Byte) :
    w &&& 0xFFFF = (op ++ 0x00#8 : BitVec (8 + 8)) ↔ opField w = op ∧ argField w = 0x00 := by
  rw [and_fullMask]
  constructor
  · rintro rfl
    simp
  · rintro ⟨rfl, h⟩
    have hw := word_eq_fields w
    rw [h] at hw
    exact hw

/-- Decoding as a choice on the two fields: the opcode map read row by row (30_encoding.md R53, R54). -/
theorem decode_eq_fields (w : CommandWord) :
    decode w =
      if opField w = 0x01 then .ok (.keypush (argField w))
      else if opField w = 0x02 then .ok (.setshift (argField w))
      else if opField w = 0x03 then .ok (.setseed (argField w))
      else if opField w = 0x04 then .ok (.tapadd (argField w))
      else if opField w = 0x08 ∧ argField w = 0x00 then .ok .enc
      else if opField w = 0x09 ∧ argField w = 0x00 then .ok .dec
      else if opField w = 0x0A then .ok (.data (argField w))
      else if opField w = 0x0B ∧ argField w = 0x00 then .ok .endJob
      else if opField w = 0x0F ∧ argField w = 0x00 then .ok .rst
      else .error (illegalReason w) := by
  have row : ∀ op : Byte, ((w &&& (0xFF00 : CommandWord)) == (op ++ 0x00#8 : BitVec (8 + 8))) =
      decide (opField w = op) := fun op => by
    rw [Bool.eq_iff_iff, beq_iff_eq, decide_eq_true_iff]
    exact opMask_iff w op
  have bare : ∀ op : Byte, ((w &&& (0xFFFF : CommandWord)) == (op ++ 0x00#8 : BitVec (8 + 8))) =
      decide (opField w = op ∧ argField w = 0x00) := fun op => by
    rw [Bool.eq_iff_iff, beq_iff_eq, decide_eq_true_iff]
    exact fullMask_iff w op
  have h1 := row 0x01
  have h2 := row 0x02
  have h3 := row 0x03
  have h4 := row 0x04
  have h8 := bare 0x08
  have h9 := bare 0x09
  have hA := row 0x0A
  have hB := bare 0x0B
  have hF := bare 0x0F
  simp only [decode, opcodeMap, List.find?, OpcodeRow.accepts]
  change ((w &&& (0xFF00 : CommandWord)) == (0x0100 : CommandWord)) = _ at h1
  change ((w &&& (0xFF00 : CommandWord)) == (0x0200 : CommandWord)) = _ at h2
  change ((w &&& (0xFF00 : CommandWord)) == (0x0300 : CommandWord)) = _ at h3
  change ((w &&& (0xFF00 : CommandWord)) == (0x0400 : CommandWord)) = _ at h4
  change ((w &&& (0xFFFF : CommandWord)) == (0x0800 : CommandWord)) = _ at h8
  change ((w &&& (0xFFFF : CommandWord)) == (0x0900 : CommandWord)) = _ at h9
  change ((w &&& (0xFF00 : CommandWord)) == (0x0A00 : CommandWord)) = _ at hA
  change ((w &&& (0xFFFF : CommandWord)) == (0x0B00 : CommandWord)) = _ at hB
  change ((w &&& (0xFFFF : CommandWord)) == (0x0F00 : CommandWord)) = _ at hF
  simp only [h1, h2, h3, h4, h8, h9, hA, hB, hF]
  clear h1 h2 h3 h4 h8 h9 hA hB hF row bare
  by_cases c0 : opField w = 0x01
  · simp only [decide_eq_true c0, if_pos c0]
  by_cases c1 : opField w = 0x02
  · simp only [decide_eq_false c0, if_neg c0, decide_eq_true c1, if_pos c1]
  by_cases c2 : opField w = 0x03
  · simp only [decide_eq_false c0, if_neg c0, decide_eq_false c1, if_neg c1, decide_eq_true c2, if_pos c2]
  by_cases c3 : opField w = 0x04
  · simp only [decide_eq_false c0, if_neg c0, decide_eq_false c1, if_neg c1, decide_eq_false c2, if_neg c2, decide_eq_true c3, if_pos c3]
  by_cases c4 : opField w = 0x08 ∧ argField w = 0x00
  · simp only [decide_eq_false c0, if_neg c0, decide_eq_false c1, if_neg c1, decide_eq_false c2, if_neg c2, decide_eq_false c3, if_neg c3, decide_eq_true c4, if_pos c4]
  by_cases c5 : opField w = 0x09 ∧ argField w = 0x00
  · simp only [decide_eq_false c0, if_neg c0, decide_eq_false c1, if_neg c1, decide_eq_false c2, if_neg c2, decide_eq_false c3, if_neg c3, decide_eq_false c4, if_neg c4, decide_eq_true c5, if_pos c5]
  by_cases c6 : opField w = 0x0A
  · simp only [decide_eq_false c0, if_neg c0, decide_eq_false c1, if_neg c1, decide_eq_false c2, if_neg c2, decide_eq_false c3, if_neg c3, decide_eq_false c4, if_neg c4, decide_eq_false c5, if_neg c5, decide_eq_true c6, if_pos c6]
  by_cases c7 : opField w = 0x0B ∧ argField w = 0x00
  · simp only [decide_eq_false c0, if_neg c0, decide_eq_false c1, if_neg c1, decide_eq_false c2, if_neg c2, decide_eq_false c3, if_neg c3, decide_eq_false c4, if_neg c4, decide_eq_false c5, if_neg c5, decide_eq_false c6, if_neg c6, decide_eq_true c7, if_pos c7]
  by_cases c8 : opField w = 0x0F ∧ argField w = 0x00
  · simp only [decide_eq_false c0, if_neg c0, decide_eq_false c1, if_neg c1, decide_eq_false c2, if_neg c2, decide_eq_false c3, if_neg c3, decide_eq_false c4, if_neg c4, decide_eq_false c5, if_neg c5, decide_eq_false c6, if_neg c6, decide_eq_false c7, if_neg c7, decide_eq_true c8, if_pos c8]
  simp only [decide_eq_false c0, if_neg c0, decide_eq_false c1, if_neg c1, decide_eq_false c2, if_neg c2, decide_eq_false c3, if_neg c3, decide_eq_false c4, if_neg c4, decide_eq_false c5, if_neg c5, decide_eq_false c6, if_neg c6, decide_eq_false c7, if_neg c7, decide_eq_false c8, if_neg c8]

end Sys2Proof
end

