-- ==== Sys2Proof/Laws/Memory.lean ====
section
/-! SUPPORT. The laws of the key space: read after write, the frame of a write, and the canonical form. -/

namespace Sys2Proof.Machine

@[simp] theorem Memory.read_nil (a : Nat) : Memory.read [] a = none := rfl

@[simp] theorem Memory.read_write_same (m : Memory) (a : Nat) (v : Byte) :
    Memory.read (Memory.write m a v) a = some v := by
  induction m with
  | nil => simp [Memory.write, Memory.read]
  | cons c m ih =>
    obtain ⟨b, u⟩ := c
    simp only [Memory.write]
    split
    · simp [Memory.read]
    · split
      · simp [Memory.read]
      · rename_i h₁ h₂
        simp [Memory.read, h₂, ih]

theorem Memory.read_write_ne (m : Memory) {a a' : Nat} (v : Byte) (h : a' ≠ a) :
    Memory.read (Memory.write m a v) a' = Memory.read m a' := by
  induction m with
  | nil => simp [Memory.write, Memory.read, h]
  | cons c m ih =>
    obtain ⟨b, u⟩ := c
    simp only [Memory.write]
    split
    · simp [Memory.read, h]
    · split
      · rename_i h₂
        subst h₂
        simp [Memory.read, h]
      · simp only [Memory.read, ih]

/-- The indices a write leaves listed. -/
theorem Memory.mem_write {m : Memory} {a : Nat} {v : Byte} {p : Host.Cell} (h : p ∈ Memory.write m a v) :
    p = (a, v) ∨ p ∈ m := by
  induction m with
  | nil => simpa [Memory.write] using h
  | cons c m ih =>
    obtain ⟨b, u⟩ := c
    simp only [Memory.write] at h
    split at h
    · simpa using h
    · split at h
      · simp only [List.mem_cons] at h ⊢
        tauto
      · simp only [List.mem_cons] at h ⊢
        rcases h with h | h
        · exact .inr (.inl h)
        · rcases ih h with h | h
          · exact .inl h
          · exact .inr (.inr h)

theorem Memory.write_wf {m : Memory} (a : Nat) (v : Byte) (h : Memory.wf m) : Memory.wf (Memory.write m a v) := by
  induction m with
  | nil => simp [Memory.write, Memory.wf]
  | cons c m ih =>
    obtain ⟨b, u⟩ := c
    have hcons := List.pairwise_cons.mp h
    simp only [Memory.write]
    split
    · rename_i hab
      refine List.pairwise_cons.mpr ⟨fun p hp => ?_, h⟩
      rcases List.mem_cons.mp hp with rfl | hp
      · exact hab
      · exact Nat.lt_trans hab (hcons.1 p hp)
    · split
      · rename_i hab
        subst hab
        exact List.pairwise_cons.mpr ⟨hcons.1, hcons.2⟩
      · rename_i h₁ h₂
        refine List.pairwise_cons.mpr ⟨fun p hp => ?_, ih hcons.2⟩
        rcases Memory.mem_write hp with rfl | hp
        · show b < a
          omega
        · exact hcons.1 p hp

/-- A write past every listed index appends. -/
theorem Memory.write_past {m : Memory} {n : Nat} (v : Byte) (h : ∀ p ∈ m, p.1 < n) :
    Memory.write m n v = m ++ [(n, v)] := by
  induction m with
  | nil => rfl
  | cons c m ih =>
    obtain ⟨b, u⟩ := c
    have hb : b < n := h (b, u) (by simp)
    have ih' := ih (fun p hp => h p (by simp [hp]))
    simp only [Memory.write, List.cons_append]
    rw [if_neg (by omega), if_neg (by omega), ih']

/-- Cells `0 .. n-1` in order are in canonical form. -/
theorem Memory.wf_of_range {m : Memory} {n : Nat} (h : m.map Prod.fst = List.range n) : Memory.wf m := by
  have hp : (m.map Prod.fst).Pairwise (· < ·) := h ▸ List.pairwise_lt_range
  exact List.pairwise_map.mp hp

/-- Pushing at index `n` keeps the cells `0 .. n-1` in order. -/
theorem Memory.range_write {m : Memory} {n : Nat} (v : Byte) (h : m.map Prod.fst = List.range n) :
    (Memory.write m n v).map Prod.fst = List.range (n + 1) := by
  have hlt : ∀ p ∈ m, p.1 < n := fun p hp => by
    have : p.1 ∈ m.map Prod.fst := List.mem_map_of_mem hp
    rw [h] at this
    exact List.mem_range.mp this
  rw [Memory.write_past v hlt, List.map_append, h, List.range_succ]
  rfl

/-- A cell is readable exactly when it is listed. -/
theorem Memory.read_isSome_iff (m : Memory) (a : Nat) : (Memory.read m a).isSome = true ↔ a ∈ m.map Prod.fst := by
  induction m with
  | nil => simp
  | cons c m ih =>
    obtain ⟨b, u⟩ := c
    simp only [Memory.read]
    split
    · rename_i h
      simp [h]
    · rename_i h
      simp [ih, h]

/-! `memRead` and `memWrite`. -/

theorem memRead_ok_iff (s : State) (a : Nat) (c : Byte) :
    memRead s a = .ok c ↔ a < s.config.keyMax ∧ Memory.read s.key a = some c := by
  unfold memRead
  split
  · rename_i h
    cases hr : Memory.read s.key a with
    | none => simp [h]
    | some d => simp [h]
  · rename_i h
    simp [h]

/-- A read depends on the key space and the capacity alone. -/
theorem memRead_congr {s t : State} (hk : t.key = s.key) (hc : t.config = s.config) (a : Nat) :
    memRead t a = memRead s a := by
  simp only [memRead, hk, hc]

theorem memWrite_ok_iff (s t : State) (a : Nat) (v : Byte) :
    memWrite s a v = .ok t ↔ a < s.config.keyMax ∧ t = { s with key := Memory.write s.key a v } := by
  unfold memWrite
  split
  · rename_i h
    simp [h, eq_comm]
  · rename_i h
    simp [h]

/-- A character read after it is stored, and the frame of the store. -/
theorem memRead_write (s : State) (n : Nat) (a : Nat) (v : Byte) (ha : a < s.config.keyMax) (b : Nat) :
    memRead { s with key := Memory.write s.key a v, klen := n } b = if b = a then .ok v else memRead s b := by
  split
  · rename_i h
    subst h
    rw [memRead_ok_iff]
    exact ⟨ha, Memory.read_write_same _ _ _⟩
  · rename_i h
    simp only [memRead, Memory.read_write_ne _ _ h]

/-! Reading the key. -/

theorem readKeyUpTo_congr {s t : State} (hk : t.key = s.key) (hc : t.config = s.config) (n : Nat) :
    readKeyUpTo t n = readKeyUpTo s n := by
  induction n with
  | zero => rfl
  | succ n ih => simp only [readKeyUpTo, ih, memRead_congr hk hc]

theorem readKey_congr {s t : State} (hk : t.key = s.key) (hc : t.config = s.config) (hl : t.klen = s.klen) :
    readKey t = readKey s := by
  simp only [readKey, hl, readKeyUpTo_congr hk hc]

/-- What reading the first `n` characters answers: `n` characters, each the one its cell holds. -/
theorem readKeyUpTo_ok {s : State} {n : Nat} {l : List Byte} (h : readKeyUpTo s n = .ok l) :
    l.length = n ∧ ∀ a c, l[a]? = some c → memRead s a = .ok c := by
  induction n generalizing l with
  | zero =>
    simp only [readKeyUpTo, Except.ok.injEq] at h
    subst h
    simp
  | succ n ih =>
    simp only [readKeyUpTo] at h
    split at h
    · cases h
    · rename_i l' hl'
      obtain ⟨hlen, hget⟩ := ih hl'
      split at h
      · cases h
      · rename_i d hd
        simp only [Except.ok.injEq] at h
        subst h
        refine ⟨by simp [hlen], fun a c hac => ?_⟩
        rw [List.getElem?_append] at hac
        split at hac
        · exact hget a c hac
        · rename_i hge
          have : a - l'.length = 0 := by
            rcases Nat.eq_zero_or_pos (a - l'.length) with h0 | h0
            · exact h0
            · rw [List.getElem?_singleton, if_neg (by omega)] at hac
              cases hac
          simp only [this, List.getElem?_cons_zero, Option.some.injEq] at hac
          have ha : a = n := by omega
          subst ha hac
          exact hd

/-- The first `n` characters can be read when each of their cells can. -/
theorem readKeyUpTo_exists {s : State} {n : Nat} (h : ∀ a, a < n → ∃ c, memRead s a = .ok c) :
    ∃ l, readKeyUpTo s n = .ok l := by
  induction n with
  | zero => exact ⟨[], rfl⟩
  | succ n ih =>
    obtain ⟨l, hl⟩ := ih (fun a ha => h a (by omega))
    obtain ⟨c, hc⟩ := h n (by omega)
    exact ⟨l ++ [c], by simp only [readKeyUpTo, hl, hc]⟩

theorem readKey_exists {s : State} (h : ∀ a, a < s.klen → ∃ c, memRead s a = .ok c) : ∃ l, readKey s = .ok l :=
  readKeyUpTo_exists h

/-- What the key is: `KLEN` characters, character `a` the one cell `a` holds (10_state.md R22). -/
theorem readKey_ok {s : State} {l : List Byte} (h : readKey s = .ok l) :
    l.length = s.klen ∧ ∀ a c, l[a]? = some c → memRead s a = .ok c :=
  readKeyUpTo_ok h

theorem readKey_memRead {s : State} {l : List Byte} (h : readKey s = .ok l) {a : Nat} (ha : a < s.klen) :
    ∃ c, l[a]? = some c ∧ memRead s a = .ok c := by
  obtain ⟨hlen, hget⟩ := readKey_ok h
  have hlt : a < l.length := by omega
  exact ⟨l[a], List.getElem?_eq_getElem hlt, hget a _ (List.getElem?_eq_getElem hlt)⟩

/-- A check of some character of the key is a check of some cell. -/
theorem readKey_any {s : State} {l : List Byte} (h : readKey s = .ok l) (f : Byte → Bool) :
    l.any f = true ↔ ∃ a, a < s.klen ∧ ∃ c, memRead s a = .ok c ∧ f c = true := by
  obtain ⟨hlen, hget⟩ := readKey_ok h
  rw [List.any_eq_true]
  constructor
  · rintro ⟨c, hc, hf⟩
    obtain ⟨a, ha, rfl⟩ := List.getElem_of_mem hc
    exact ⟨a, by omega, l[a], hget a _ (List.getElem?_eq_getElem ha), hf⟩
  · rintro ⟨a, ha, c, hc, hf⟩
    obtain ⟨d, hd, hd'⟩ := readKey_memRead h ha
    rw [hd'] at hc
    cases hc
    exact ⟨c, List.mem_of_getElem? hd, hf⟩

/-- The key space a push leaves, read as the key. -/
theorem readKeyUpTo_write {s : State} {k n : Nat} (v : Byte) (m : Nat) (ha : k < s.config.keyMax) (hn : n ≤ k) :
    readKeyUpTo { s with key := Memory.write s.key k v, klen := m } n = readKeyUpTo s n := by
  induction n with
  | zero => rfl
  | succ n ih =>
    simp only [readKeyUpTo, ih (by omega), memRead_write s m k v ha, if_neg (show n ≠ k by omega)]

/-- Storing at `KLEN` and counting it appends the character to the key. -/
theorem readKey_push {s : State} {l : List Byte} (v : Byte) (ha : s.klen < s.config.keyMax) (h : readKey s = .ok l) :
    readKey { s with key := Memory.write s.key s.klen v, klen := s.klen + 1 } = .ok (l ++ [v]) := by
  have h' : readKeyUpTo s s.klen = .ok l := h
  simp only [readKey, readKeyUpTo, readKeyUpTo_write v (s.klen + 1) ha (Nat.le_refl _), h',
    memRead_write s (s.klen + 1) s.klen v ha, if_true]

end Sys2Proof.Machine
end

