-- ==== Sys2Proof/Laws/State.lean ====
section
/-! SUPPORT. One lemma per field of State and per update: what the update leaves in the field. -/

namespace Sys2Proof.Machine

/-! `raiseFault` writes `st` and `err`. -/

@[simp] theorem raiseFault_st (f : Byte) (s : State) : (raiseFault f s).st = .fault := rfl
@[simp] theorem raiseFault_err (f : Byte) (s : State) : (raiseFault f s).err = f := rfl
@[simp] theorem raiseFault_mode (f : Byte) (s : State) : (raiseFault f s).mode = s.mode := rfl
@[simp] theorem raiseFault_shift (f : Byte) (s : State) : (raiseFault f s).shift = s.shift := rfl
@[simp] theorem raiseFault_seed (f : Byte) (s : State) : (raiseFault f s).seed = s.seed := rfl
@[simp] theorem raiseFault_taps (f : Byte) (s : State) : (raiseFault f s).taps = s.taps := rfl
@[simp] theorem raiseFault_tapbad (f : Byte) (s : State) : (raiseFault f s).tapbad = s.tapbad := rfl
@[simp] theorem raiseFault_key (f : Byte) (s : State) : (raiseFault f s).key = s.key := rfl
@[simp] theorem raiseFault_klen (f : Byte) (s : State) : (raiseFault f s).klen = s.klen := rfl
@[simp] theorem raiseFault_keyovf (f : Byte) (s : State) : (raiseFault f s).keyovf = s.keyovf := rfl
@[simp] theorem raiseFault_kidx (f : Byte) (s : State) : (raiseFault f s).kidx = s.kidx := rfl
@[simp] theorem raiseFault_lfsr (f : Byte) (s : State) : (raiseFault f s).lfsr = s.lfsr := rfl
@[simp] theorem raiseFault_out (f : Byte) (s : State) : (raiseFault f s).out = s.out := rfl
@[simp] theorem raiseFault_held (f : Byte) (s : State) : (raiseFault f s).held = s.held := rfl
@[simp] theorem raiseFault_outReady (f : Byte) (s : State) : (raiseFault f s).outReady = s.outReady := rfl
@[simp] theorem raiseFault_input (f : Byte) (s : State) : (raiseFault f s).input = s.input := rfl
@[simp] theorem raiseFault_config (f : Byte) (s : State) : (raiseFault f s).config = s.config := rfl

/-! `clearRegisters` writes every register. -/

@[simp] theorem clearRegisters_st (s : State) : (clearRegisters s).st = .idle := rfl
@[simp] theorem clearRegisters_err (s : State) : (clearRegisters s).err = 0x00 := rfl
@[simp] theorem clearRegisters_mode (s : State) : (clearRegisters s).mode = .forward := rfl
@[simp] theorem clearRegisters_shift (s : State) : (clearRegisters s).shift = 0x00 := rfl
@[simp] theorem clearRegisters_seed (s : State) : (clearRegisters s).seed = 0x00 := rfl
@[simp] theorem clearRegisters_taps (s : State) : (clearRegisters s).taps = 0x00 := rfl
@[simp] theorem clearRegisters_tapbad (s : State) : (clearRegisters s).tapbad = false := rfl
@[simp] theorem clearRegisters_key (s : State) : (clearRegisters s).key = [] := rfl
@[simp] theorem clearRegisters_klen (s : State) : (clearRegisters s).klen = 0 := rfl
@[simp] theorem clearRegisters_keyovf (s : State) : (clearRegisters s).keyovf = false := rfl
@[simp] theorem clearRegisters_kidx (s : State) : (clearRegisters s).kidx = 0 := rfl
@[simp] theorem clearRegisters_lfsr (s : State) : (clearRegisters s).lfsr = 0x00 := rfl
@[simp] theorem clearRegisters_out (s : State) : (clearRegisters s).out = s.out := rfl
@[simp] theorem clearRegisters_held (s : State) : (clearRegisters s).held = s.held := rfl
@[simp] theorem clearRegisters_outReady (s : State) : (clearRegisters s).outReady = s.outReady := rfl
@[simp] theorem clearRegisters_input (s : State) : (clearRegisters s).input = s.input := rfl
@[simp] theorem clearRegisters_config (s : State) : (clearRegisters s).config = s.config := rfl

/-! `emit` writes `out` and `held`. -/

@[simp] theorem emit_st (v : Byte) (s : State) : (emit v s).st = s.st := rfl
@[simp] theorem emit_err (v : Byte) (s : State) : (emit v s).err = s.err := rfl
@[simp] theorem emit_mode (v : Byte) (s : State) : (emit v s).mode = s.mode := rfl
@[simp] theorem emit_shift (v : Byte) (s : State) : (emit v s).shift = s.shift := rfl
@[simp] theorem emit_seed (v : Byte) (s : State) : (emit v s).seed = s.seed := rfl
@[simp] theorem emit_taps (v : Byte) (s : State) : (emit v s).taps = s.taps := rfl
@[simp] theorem emit_tapbad (v : Byte) (s : State) : (emit v s).tapbad = s.tapbad := rfl
@[simp] theorem emit_key (v : Byte) (s : State) : (emit v s).key = s.key := rfl
@[simp] theorem emit_klen (v : Byte) (s : State) : (emit v s).klen = s.klen := rfl
@[simp] theorem emit_keyovf (v : Byte) (s : State) : (emit v s).keyovf = s.keyovf := rfl
@[simp] theorem emit_kidx (v : Byte) (s : State) : (emit v s).kidx = s.kidx := rfl
@[simp] theorem emit_lfsr (v : Byte) (s : State) : (emit v s).lfsr = s.lfsr := rfl
@[simp] theorem emit_out (v : Byte) (s : State) : (emit v s).out = s.out ++ [v] := rfl
@[simp] theorem emit_held (v : Byte) (s : State) : (emit v s).held = if s.outReady then [] else s.held ++ [v] := rfl
@[simp] theorem emit_outReady (v : Byte) (s : State) : (emit v s).outReady = s.outReady := rfl
@[simp] theorem emit_input (v : Byte) (s : State) : (emit v s).input = s.input := rfl
@[simp] theorem emit_config (v : Byte) (s : State) : (emit v s).config = s.config := rfl

/-! `pinReset` writes every register, `out` and `held`. -/

@[simp] theorem pinReset_st (s : State) : (pinReset s).st = .idle := rfl
@[simp] theorem pinReset_err (s : State) : (pinReset s).err = 0x00 := rfl
@[simp] theorem pinReset_mode (s : State) : (pinReset s).mode = .forward := rfl
@[simp] theorem pinReset_shift (s : State) : (pinReset s).shift = 0x00 := rfl
@[simp] theorem pinReset_seed (s : State) : (pinReset s).seed = 0x00 := rfl
@[simp] theorem pinReset_taps (s : State) : (pinReset s).taps = 0x00 := rfl
@[simp] theorem pinReset_tapbad (s : State) : (pinReset s).tapbad = false := rfl
@[simp] theorem pinReset_key (s : State) : (pinReset s).key = [] := rfl
@[simp] theorem pinReset_klen (s : State) : (pinReset s).klen = 0 := rfl
@[simp] theorem pinReset_keyovf (s : State) : (pinReset s).keyovf = false := rfl
@[simp] theorem pinReset_kidx (s : State) : (pinReset s).kidx = 0 := rfl
@[simp] theorem pinReset_lfsr (s : State) : (pinReset s).lfsr = 0x00 := rfl
@[simp] theorem pinReset_out (s : State) : (pinReset s).out = [] := rfl
@[simp] theorem pinReset_held (s : State) : (pinReset s).held = [] := rfl
@[simp] theorem pinReset_outReady (s : State) : (pinReset s).outReady = s.outReady := rfl
@[simp] theorem pinReset_input (s : State) : (pinReset s).input = s.input := rfl
@[simp] theorem pinReset_config (s : State) : (pinReset s).config = s.config := rfl

/-! `presentWord` writes `input` and `held`. -/

@[simp] theorem presentWord_st (w : CommandWord) (s : State) : (presentWord w s).st = s.st := rfl
@[simp] theorem presentWord_err (w : CommandWord) (s : State) : (presentWord w s).err = s.err := rfl
@[simp] theorem presentWord_mode (w : CommandWord) (s : State) : (presentWord w s).mode = s.mode := rfl
@[simp] theorem presentWord_shift (w : CommandWord) (s : State) : (presentWord w s).shift = s.shift := rfl
@[simp] theorem presentWord_seed (w : CommandWord) (s : State) : (presentWord w s).seed = s.seed := rfl
@[simp] theorem presentWord_taps (w : CommandWord) (s : State) : (presentWord w s).taps = s.taps := rfl
@[simp] theorem presentWord_tapbad (w : CommandWord) (s : State) : (presentWord w s).tapbad = s.tapbad := rfl
@[simp] theorem presentWord_key (w : CommandWord) (s : State) : (presentWord w s).key = s.key := rfl
@[simp] theorem presentWord_klen (w : CommandWord) (s : State) : (presentWord w s).klen = s.klen := rfl
@[simp] theorem presentWord_keyovf (w : CommandWord) (s : State) : (presentWord w s).keyovf = s.keyovf := rfl
@[simp] theorem presentWord_kidx (w : CommandWord) (s : State) : (presentWord w s).kidx = s.kidx := rfl
@[simp] theorem presentWord_lfsr (w : CommandWord) (s : State) : (presentWord w s).lfsr = s.lfsr := rfl
@[simp] theorem presentWord_out (w : CommandWord) (s : State) : (presentWord w s).out = s.out := rfl
@[simp] theorem presentWord_held (w : CommandWord) (s : State) : (presentWord w s).held = [] := rfl
@[simp] theorem presentWord_outReady (w : CommandWord) (s : State) : (presentWord w s).outReady = s.outReady := rfl
@[simp] theorem presentWord_input (w : CommandWord) (s : State) : (presentWord w s).input = .word w :: s.input := rfl
@[simp] theorem presentWord_config (w : CommandWord) (s : State) : (presentWord w s).config = s.config := rfl

/-! `State.resetWith` fixes every field but the instance. -/

@[simp] theorem State.resetWith_st (c : Config) : (State.resetWith c).st = .idle := rfl
@[simp] theorem State.resetWith_err (c : Config) : (State.resetWith c).err = 0x00 := rfl
@[simp] theorem State.resetWith_mode (c : Config) : (State.resetWith c).mode = .forward := rfl
@[simp] theorem State.resetWith_shift (c : Config) : (State.resetWith c).shift = 0x00 := rfl
@[simp] theorem State.resetWith_seed (c : Config) : (State.resetWith c).seed = 0x00 := rfl
@[simp] theorem State.resetWith_taps (c : Config) : (State.resetWith c).taps = 0x00 := rfl
@[simp] theorem State.resetWith_tapbad (c : Config) : (State.resetWith c).tapbad = false := rfl
@[simp] theorem State.resetWith_key (c : Config) : (State.resetWith c).key = [] := rfl
@[simp] theorem State.resetWith_klen (c : Config) : (State.resetWith c).klen = 0 := rfl
@[simp] theorem State.resetWith_keyovf (c : Config) : (State.resetWith c).keyovf = false := rfl
@[simp] theorem State.resetWith_kidx (c : Config) : (State.resetWith c).kidx = 0 := rfl
@[simp] theorem State.resetWith_lfsr (c : Config) : (State.resetWith c).lfsr = 0x00 := rfl
@[simp] theorem State.resetWith_out (c : Config) : (State.resetWith c).out = [] := rfl
@[simp] theorem State.resetWith_held (c : Config) : (State.resetWith c).held = [] := rfl
@[simp] theorem State.resetWith_outReady (c : Config) : (State.resetWith c).outReady = true := rfl
@[simp] theorem State.resetWith_input (c : Config) : (State.resetWith c).input = [] := rfl
@[simp] theorem State.resetWith_config (c : Config) : (State.resetWith c).config = c := rfl

/-! `addTap` writes `taps` or `tapbad`. -/

theorem addTap_of_inRange (p : Byte) (s : State) (h : tapInRange p = true) :
    addTap p s = { s with taps := s.taps ||| tapMask p } := by simp [addTap, h]

theorem addTap_of_outOfRange (p : Byte) (s : State) (h : tapInRange p = false) :
    addTap p s = { s with tapbad := true } := by simp [addTap, h]

theorem addTap_eq (p : Byte) (s : State) :
    addTap p s = { s with taps := (addTap p s).taps, tapbad := (addTap p s).tapbad } := by
  unfold addTap; split <;> rfl

@[simp] theorem addTap_st (p : Byte) (s : State) : (addTap p s).st = s.st := by unfold addTap; split <;> rfl
@[simp] theorem addTap_err (p : Byte) (s : State) : (addTap p s).err = s.err := by unfold addTap; split <;> rfl
@[simp] theorem addTap_mode (p : Byte) (s : State) : (addTap p s).mode = s.mode := by unfold addTap; split <;> rfl
@[simp] theorem addTap_shift (p : Byte) (s : State) : (addTap p s).shift = s.shift := by unfold addTap; split <;> rfl
@[simp] theorem addTap_seed (p : Byte) (s : State) : (addTap p s).seed = s.seed := by unfold addTap; split <;> rfl
@[simp] theorem addTap_key (p : Byte) (s : State) : (addTap p s).key = s.key := by unfold addTap; split <;> rfl
@[simp] theorem addTap_klen (p : Byte) (s : State) : (addTap p s).klen = s.klen := by unfold addTap; split <;> rfl
@[simp] theorem addTap_keyovf (p : Byte) (s : State) : (addTap p s).keyovf = s.keyovf := by unfold addTap; split <;> rfl
@[simp] theorem addTap_kidx (p : Byte) (s : State) : (addTap p s).kidx = s.kidx := by unfold addTap; split <;> rfl
@[simp] theorem addTap_lfsr (p : Byte) (s : State) : (addTap p s).lfsr = s.lfsr := by unfold addTap; split <;> rfl
@[simp] theorem addTap_out (p : Byte) (s : State) : (addTap p s).out = s.out := by unfold addTap; split <;> rfl
@[simp] theorem addTap_held (p : Byte) (s : State) : (addTap p s).held = s.held := by unfold addTap; split <;> rfl
@[simp] theorem addTap_outReady (p : Byte) (s : State) : (addTap p s).outReady = s.outReady := by unfold addTap; split <;> rfl
@[simp] theorem addTap_input (p : Byte) (s : State) : (addTap p s).input = s.input := by unfold addTap; split <;> rfl
@[simp] theorem addTap_config (p : Byte) (s : State) : (addTap p s).config = s.config := by unfold addTap; split <;> rfl

end Sys2Proof.Machine
end

