-- ==== Sys2Proof/Laws/Ops.lean ====
section
/-! SUPPORT. One lemma per shared operation that says once what it answers, one for exec and one for the step. -/

namespace Sys2Proof.Machine

/-! The state a command needs. -/

theorem whenIdle_idle {s : State} (h : s.st = .idle) (body : Result) : whenIdle s body = body := by
  simp [whenIdle, h]

theorem whenIdle_run {s : State} (h : s.st = .run) (body : Result) :
    whenIdle s body = .next (raiseFault eProto s) := by
  simp [whenIdle, h]

theorem whenIdle_fault {s : State} (h : s.st = .fault) (body : Result) : whenIdle s body = .next s := by
  simp [whenIdle, h]

theorem whenRunning_run {s : State} (h : s.st = .run) (body : Result) : whenRunning s body = body := by
  simp [whenRunning, h]

theorem whenRunning_idle {s : State} (h : s.st = .idle) (body : Result) :
    whenRunning s body = .next (raiseFault eProto s) := by
  simp [whenRunning, h]

theorem whenRunning_fault {s : State} (h : s.st = .fault) (body : Result) : whenRunning s body = .next s := by
  simp [whenRunning, h]

/-- What a command permitted only in `IDLE` can do. -/
theorem whenIdle_next {s t : State} {body : Result} (h : whenIdle s body = .next t) :
    (s.st = .idle ∧ body = .next t) ∨ (s.st = .run ∧ t = raiseFault eProto s) ∨ (s.st = .fault ∧ t = s) := by
  unfold whenIdle at h
  split at h
  · exact .inl ⟨‹_›, h⟩
  · exact .inr (.inl ⟨‹_›, by simpa using h.symm⟩)
  · exact .inr (.inr ⟨‹_›, by simpa using h.symm⟩)

/-- What a command permitted only in `RUN` can do. -/
theorem whenRunning_next {s t : State} {body : Result} (h : whenRunning s body = .next t) :
    (s.st = .run ∧ body = .next t) ∨ (s.st = .idle ∧ t = raiseFault eProto s) ∨ (s.st = .fault ∧ t = s) := by
  unfold whenRunning at h
  split at h
  · exact .inr (.inl ⟨‹_›, by simpa using h.symm⟩)
  · exact .inl ⟨‹_›, h⟩
  · exact .inr (.inr ⟨‹_›, by simpa using h.symm⟩)

/-! The operations of the commands. -/

/-- A push onto a buffer with room. -/
theorem pushKey_room (c : Byte) {s : State} (h : s.klen < s.config.keyMax) :
    pushKey c s = .next { s with key := Memory.write s.key s.klen c, klen := s.klen + 1 } := by
  simp [pushKey, memWrite, h]

/-- A push onto a full buffer. -/
theorem pushKey_full (c : Byte) {s : State} (h : ¬ s.klen < s.config.keyMax) :
    pushKey c s = .next { s with keyovf := true } := by
  simp [pushKey, h]

/-- What a push can do. -/
theorem pushKey_next {c : Byte} {s t : State} (h : pushKey c s = .next t) :
    (s.klen < s.config.keyMax ∧ t = { s with key := Memory.write s.key s.klen c, klen := s.klen + 1 }) ∨
    (¬ s.klen < s.config.keyMax ∧ t = { s with keyovf := true }) := by
  by_cases hlt : s.klen < s.config.keyMax
  · rw [pushKey_room c hlt] at h
    exact .inl ⟨hlt, by simpa using h.symm⟩
  · rw [pushKey_full c hlt] at h
    exact .inr ⟨hlt, by simpa using h.symm⟩

/-- Starting a job on a key that can be read. -/
theorem startJob_of_readKey {m : Mode} {s : State} {chars : List Byte} (h : readKey s = .ok chars) :
    startJob m s =
      if validate chars s = 0x00 then .next { s with mode := m, kidx := 0, lfsr := s.seed, st := .run }
      else .next (raiseFault (validate chars s) s) := by
  simp only [startJob, h]

/-- The command that starts a job, in `IDLE`. -/
theorem exec_startCommand (m : Mode) {s : State} (h : s.st = .idle) : exec (startCommand m) s = startJob m s := by
  cases m <;> exact whenIdle_idle h _

/-- What starting a job can do. -/
theorem startJob_next {m : Mode} {s t : State} (h : startJob m s = .next t) :
    ∃ chars, readKey s = .ok chars ∧
      ((validate chars s = 0x00 ∧ t = { s with mode := m, kidx := 0, lfsr := s.seed, st := .run }) ∨
       (validate chars s ≠ 0x00 ∧ t = raiseFault (validate chars s) s)) := by
  unfold startJob at h
  split at h
  · cases h
  · rename_i chars hc
    refine ⟨chars, hc, ?_⟩
    split at h
    · exact .inl ⟨‹_›, by simpa using h.symm⟩
    · exact .inr ⟨‹_›, by simpa using h.symm⟩

/-- Transforming a byte when the key character can be read. -/
theorem transformByte_of_memRead {b c : Byte} {s : State} (h : memRead s s.kidx = .ok c) :
    transformByte b s = .next
      { emit (muxPath s.mode b (keyValue c) s.shift (ksByte s.config.tapOrder s.lfsr s.taps).2) s with
        lfsr := (ksByte s.config.tapOrder s.lfsr s.taps).1
        kidx := advanceKidx s.kidx s.klen } := by
  simp only [transformByte, h]

/-- What transforming a byte can do. -/
theorem transformByte_next {b : Byte} {s t : State} (h : transformByte b s = .next t) :
    ∃ c, memRead s s.kidx = .ok c ∧
      t = { emit (muxPath s.mode b (keyValue c) s.shift (ksByte s.config.tapOrder s.lfsr s.taps).2) s with
            lfsr := (ksByte s.config.tapOrder s.lfsr s.taps).1
            kidx := advanceKidx s.kidx s.klen } := by
  unfold transformByte at h
  split at h
  · cases h
  · exact ⟨_, ‹_›, by simpa using h.symm⟩

/-- What an illegal word can do. -/
theorem takeIllegal_eq (s : State) :
    takeIllegal s = .next (if s.st = .fault then s else raiseFault eIllegal s) := by
  unfold takeIllegal
  cases s.st <;> rfl

/-! One command. -/

/-- What a command other than `RST` does in `FAULT`: nothing (60_exceptions.md R129). -/
theorem exec_fault {i : Instr} {s : State} (h : s.st = .fault) (hi : i ≠ .rst) : exec i s = .next s := by
  cases i with
  | rst => exact absurd rfl hi
  | _ => simp [exec, execKeypush, execSetshift, execSetseed, execTapadd, execEnc, execDec, execData, execEndJob,
      whenIdle, whenRunning, h]

/-- A command in a state that does not permit it, outside `FAULT` (60_exceptions.md R123). -/
theorem exec_refused {i : Instr} {s : State} (hf : s.st ≠ .fault) (hp : permittedIn i s.st = false) :
    exec i s = .next (raiseFault eProto s) := by
  cases hst : s.st <;> cases i <;>
    simp_all [exec, execKeypush, execSetshift, execSetseed, execTapadd, execEnc, execDec, execData, execEndJob,
      whenIdle, whenRunning, permittedIn]

/-- A command in a state that permits it has its own effect (44_pipeline_commands.md R99). -/
theorem exec_permitted {i : Instr} {s : State} :
    permittedIn i s.st = true → exec i s =
      match i with
      | .keypush c => pushKey c s
      | .setshift v => .next { s with shift := v }
      | .setseed v => .next { s with seed := v }
      | .tapadd p => .next (addTap p s)
      | .enc => startJob .forward s
      | .dec => startJob .reverse s
      | .data b => transformByte b s
      | .endJob => .next (clearRegisters s)
      | .rst => .next (clearRegisters s) := by
  intro h
  cases i with
  | keypush c => exact whenIdle_idle (by simpa [permittedIn] using h) _
  | setshift v => exact whenIdle_idle (by simpa [permittedIn] using h) _
  | setseed v => exact whenIdle_idle (by simpa [permittedIn] using h) _
  | tapadd p => exact whenIdle_idle (by simpa [permittedIn] using h) _
  | enc => exact whenIdle_idle (by simpa [permittedIn] using h) _
  | dec => exact whenIdle_idle (by simpa [permittedIn] using h) _
  | data b => exact whenRunning_run (by simpa [permittedIn] using h) _
  | endJob => exact whenRunning_run (by simpa [permittedIn] using h) _
  | rst => rfl

/-- What a command can do: it is discarded in `FAULT`, refused with `E_PROTO`, or permitted and has its effect, which
`exec_permitted` gives. -/
theorem exec_next {i : Instr} {s t : State} (h : exec i s = .next t) :
    (s.st = .fault ∧ i ≠ .rst ∧ t = s) ∨
    (s.st ≠ .fault ∧ permittedIn i s.st = false ∧ t = raiseFault eProto s) ∨
    permittedIn i s.st = true := by
  by_cases hf : s.st = .fault ∧ i ≠ .rst
  · rw [exec_fault hf.1 hf.2] at h
    exact .inl ⟨hf.1, hf.2, by simpa using h.symm⟩
  · cases hp : permittedIn i s.st with
    | true => exact .inr (.inr rfl)
    | false =>
      have hne : s.st ≠ .fault := fun hst => by
        have hi : i = .rst := by
          by_contra hi
          exact hf ⟨hst, hi⟩
        subst hi
        cases hp
      rw [exec_refused hne hp] at h
      exact .inr (.inl ⟨hne, rfl, by simpa using h.symm⟩)

/-- No command touches the instance, the host's events or the level of `out_ready`. -/
theorem exec_host {i : Instr} {s t : State} (h : exec i s = .next t) :
    t.config = s.config ∧ t.input = s.input ∧ t.outReady = s.outReady := by
  rcases exec_next h with ⟨_, _, rfl⟩ | ⟨_, _, rfl⟩ | hp
  · exact ⟨rfl, rfl, rfl⟩
  · exact ⟨rfl, rfl, rfl⟩
  · rw [exec_permitted hp] at h
    cases i with
    | keypush c => rcases pushKey_next h with ⟨_, rfl⟩ | ⟨_, rfl⟩ <;> exact ⟨rfl, rfl, rfl⟩
    | setshift v => cases h; exact ⟨rfl, rfl, rfl⟩
    | setseed v => cases h; exact ⟨rfl, rfl, rfl⟩
    | tapadd p => cases h; simp
    | enc => obtain ⟨c, _, ⟨_, rfl⟩ | ⟨_, rfl⟩⟩ := startJob_next h <;> exact ⟨rfl, rfl, rfl⟩
    | dec => obtain ⟨c, _, ⟨_, rfl⟩ | ⟨_, rfl⟩⟩ := startJob_next h <;> exact ⟨rfl, rfl, rfl⟩
    | data b => obtain ⟨c, _, rfl⟩ := transformByte_next h; exact ⟨rfl, rfl, rfl⟩
    | endJob => cases h; exact ⟨rfl, rfl, rfl⟩
    | rst => cases h; exact ⟨rfl, rfl, rfl⟩

/-! One word and one step. -/

/-- What a transferred word can do. -/
theorem takeWord_next {w : CommandWord} {s t : State} (h : takeWord w s = .next t) :
    (∃ e, decode w = .error e ∧ t = if s.st = .fault then s else raiseFault eIllegal s) ∨
    (∃ i, decode w = .ok i ∧ exec i s = .next t) := by
  unfold takeWord at h
  split at h
  · rename_i e he
    rw [takeIllegal_eq] at h
    exact .inl ⟨e, he, by simpa using h.symm⟩
  · exact .inr ⟨_, ‹_›, h⟩

/-- What a step can do: hold the state, take a pin event, or transfer one word. -/
theorem step_next {s t : State} (h : step s = .next t) :
    (t = s ∧ (∀ w rest, ¬ s.takesWord w rest) ∧ ∀ e rest, ¬ s.takesPin e rest) ∨
    (∃ e rest, s.takesPin e rest ∧ t = applyPin e { s with input := rest }) ∨
    (∃ w rest, s.takesWord w rest ∧ takeWord w { s with input := rest } = .next t) := by
  simp only [step, hostStep] at h
  split at h
  · rename_i hin
    exact .inl ⟨by simpa using h.symm, by simp [State.takesWord, hin], by simp [State.takesPin, hin]⟩
  · rename_i e rest hin
    exact .inr (.inl ⟨e, rest, .inl hin, by simpa using h.symm⟩)
  · rename_i w rest hin
    split at h
    · exact .inr (.inr ⟨w, rest, ⟨hin, ‹_›⟩, h⟩)
    · rename_i hr
      split at h
      · rename_i e later
        exact .inr (.inl ⟨e, .word w :: later, .inr ⟨w, later, by simpa using hr, hin, rfl⟩, by simpa using h.symm⟩)
      · exact .inl ⟨by simpa using h.symm, by simp [State.takesWord, hr], by simp [State.takesPin, hin]⟩
      · exact .inl ⟨by simpa using h.symm, by simp [State.takesWord, hr], by simp [State.takesPin, hin]⟩

/-- A step that transfers a word. -/
theorem step_takesWord {s : State} {w : CommandWord} {rest : List HostEvent} (h : s.takesWord w rest) :
    step s = takeWord w { s with input := rest } := by
  simp [step, hostStep, h.1, h.2]

/-- A step that takes a pin event. -/
theorem step_takesPin {s : State} {e : PinEvent} {rest : List HostEvent} (h : s.takesPin e rest) :
    step s = .next (applyPin e { s with input := rest }) := by
  rcases h with hin | ⟨w, later, hr, hin, rfl⟩
  · simp [step, hostStep, hin]
  · simp [step, hostStep, hin, hr]

/-- A step takes one event: the pin event it takes is the only one, and it transfers no word. -/
theorem takesPin_unique {s : State} {e : PinEvent} {rest : List HostEvent} (h : s.takesPin e rest) :
    (∀ e' rest', s.takesPin e' rest' → e' = e ∧ rest' = rest) ∧ ∀ w rest', ¬ s.takesWord w rest' := by
  rcases h with hin | ⟨w, later, hr, hin, rfl⟩
  · refine ⟨?_, fun w rest' h => by simpa [hin] using h.1⟩
    rintro e' rest' (h | ⟨w, later, _, h, _⟩)
    · simpa [hin, eq_comm] using h
    · simp [hin] at h
  · refine ⟨?_, fun w' rest' h => Bool.false_ne_true (hr.symm.trans h.2)⟩
    rintro e' rest' (h | ⟨w', later', _, h, rfl⟩)
    · simp [hin] at h
    · rw [hin] at h
      cases h
      exact ⟨rfl, rfl⟩

/-- A step transfers one word: the word it transfers is the only one, and it takes no pin event. -/
theorem takesWord_unique {s : State} {w : CommandWord} {rest : List HostEvent} (h : s.takesWord w rest) :
    (∀ w' rest', s.takesWord w' rest' → w' = w ∧ rest' = rest) ∧ ∀ e rest', ¬ s.takesPin e rest' := by
  obtain ⟨hin, hr⟩ := h
  constructor
  · rintro w' rest' ⟨h, _⟩
    rw [hin] at h
    cases h
    exact ⟨rfl, rfl⟩
  · rintro e rest' (h | ⟨w', later, hr', _⟩)
    · simp [hin] at h
    · exact Bool.false_ne_true (hr'.symm.trans hr)

/-- What a pin event can do. -/
theorem applyPin_cases (e : PinEvent) (s : State) :
    applyPin e s = pinReset s ∨
    (∃ level, applyPin e s = { s with outReady := level, held := if level then [] else s.held }) ∨
    applyPin e s = { s with held := s.held.tail } := by
  cases e with
  | rst => exact .inl rfl
  | outReady level => exact .inr (.inl ⟨level, rfl⟩)
  | takeByte => exact .inr (.inr rfl)

end Sys2Proof.Machine
end

