-- ==== Sys2Proof/Laws/PerInstr.lean ====
section
/-! SUPPORT. Per command: its word carries its opcode and its operand, and a row of the opcode map accepts the word and
builds the command from it (30_encoding.md R51 to R54). -/

namespace Sys2Proof.Laws

/-- What is said of each command. -/
def EncodeMatchesRow.Statement (i : Instr) : Prop :=
  opField (encode i) = i.opcode ∧ argField (encode i) = i.operand ∧
    ∃ r ∈ opcodeMap, r.accepts (encode i) = true ∧ r.build (argField (encode i)) = i

/-- A row with an operand accepts every word of its opcode. -/
theorem accepts_operand (r : OpcodeRow) (op arg : Byte) (hm : r.mask = 0xFF00)
    (hp : r.pattern = (op ++ 0x00#8 : BitVec (8 + 8))) : r.accepts (op ++ arg : BitVec (8 + 8)) = true := by
  rw [OpcodeRow.accepts, hm, hp, beq_iff_eq]
  exact (opMask_iff _ _).mpr (opField_append op arg)

theorem EncodeMatchesRow.keypush (c : Byte) : EncodeMatchesRow.Statement (.keypush c) :=
  ⟨opField_append _ _, argField_append _ _, ⟨0x0100, 0xFF00, .keypush⟩, by simp [opcodeMap],
    accepts_operand _ 0x01 c rfl rfl, congrArg Instr.keypush (argField_append _ _)⟩

theorem EncodeMatchesRow.setshift (v : Byte) : EncodeMatchesRow.Statement (.setshift v) :=
  ⟨opField_append _ _, argField_append _ _, ⟨0x0200, 0xFF00, .setshift⟩, by simp [opcodeMap],
    accepts_operand _ 0x02 v rfl rfl, congrArg Instr.setshift (argField_append _ _)⟩

theorem EncodeMatchesRow.setseed (v : Byte) : EncodeMatchesRow.Statement (.setseed v) :=
  ⟨opField_append _ _, argField_append _ _, ⟨0x0300, 0xFF00, .setseed⟩, by simp [opcodeMap],
    accepts_operand _ 0x03 v rfl rfl, congrArg Instr.setseed (argField_append _ _)⟩

theorem EncodeMatchesRow.tapadd (p : Byte) : EncodeMatchesRow.Statement (.tapadd p) :=
  ⟨opField_append _ _, argField_append _ _, ⟨0x0400, 0xFF00, .tapadd⟩, by simp [opcodeMap],
    accepts_operand _ 0x04 p rfl rfl, congrArg Instr.tapadd (argField_append _ _)⟩

theorem EncodeMatchesRow.enc : EncodeMatchesRow.Statement .enc :=
  ⟨rfl, rfl, ⟨0x0800, 0xFFFF, fun _ => .enc⟩, by simp [opcodeMap], rfl, rfl⟩

theorem EncodeMatchesRow.dec : EncodeMatchesRow.Statement .dec :=
  ⟨rfl, rfl, ⟨0x0900, 0xFFFF, fun _ => .dec⟩, by simp [opcodeMap], rfl, rfl⟩

theorem EncodeMatchesRow.data (b : Byte) : EncodeMatchesRow.Statement (.data b) :=
  ⟨opField_append _ _, argField_append _ _, ⟨0x0A00, 0xFF00, .data⟩, by simp [opcodeMap],
    accepts_operand _ 0x0A b rfl rfl, congrArg Instr.data (argField_append _ _)⟩

theorem EncodeMatchesRow.endJob : EncodeMatchesRow.Statement .endJob :=
  ⟨rfl, rfl, ⟨0x0B00, 0xFFFF, fun _ => .endJob⟩, by simp [opcodeMap], rfl, rfl⟩

theorem EncodeMatchesRow.rst : EncodeMatchesRow.Statement .rst :=
  ⟨rfl, rfl, ⟨0x0F00, 0xFFFF, fun _ => .rst⟩, by simp [opcodeMap], rfl, rfl⟩

end Sys2Proof.Laws
end

