-- ==== Sys2Proof/Laws/Stages.lean ====
section
/-! SUPPORT. The bits of the masks and of the shift register, and the stages unfolded by one byte. -/

namespace Sys2Proof.Machine

/-- The mask of a position in range is that bit alone. -/
theorem tapMask_getLsbD (p : Byte) (h : p.toNat ≤ 7) (j : Nat) (hj : j < 8) :
    (tapMask p).getLsbD j = true ↔ p.toNat = j := by
  revert p
  interval_cases j <;> decide

/-- The front of the register takes the feedback bit, every other bit the one before it. -/
theorem shiftIn_getLsbD (f : Bool) (r : Byte) :
    (shiftIn f r).getLsbD 7 = f ∧ ∀ j, j < 7 → (shiftIn f r).getLsbD j = r.getLsbD (j + 1) := by
  revert f r
  decide

/-- Packing a keystream bit shifts it in from the right. -/
theorem packBit_getLsbD (k : Byte) (b : Bool) :
    ((k <<< 1) ||| (BitVec.ofBool b).setWidth 8).getLsbD 0 = b ∧
    ∀ j, j < 7 → ((k <<< 1) ||| (BitVec.ofBool b).setWidth 8).getLsbD (j + 1) = k.getLsbD j := by
  revert b k
  decide

theorem bitrev8_getLsbD (v : Byte) (j : Nat) (h : j < 8) : (bitrev8 v).getLsbD j = v.getLsbD (7 - j) := by
  revert v
  interval_cases j <;> decide

@[simp] theorem vigFrom_nil (key : List Byte) (e : Bool) (i : Nat) : vigFrom key e i [] = [] := rfl

theorem vigFrom_cons (key : List Byte) (e : Bool) (i : Nat) (b : Byte) (text : List Byte) :
    vigFrom key e i (b :: text) =
      (if e then vigFwd b (keyValueAt key i) else vigRev b (keyValueAt key i)) :: vigFrom key e (i + 1) text := rfl

@[simp] theorem streamFrom_nil (o : TapOrder) (t r : Byte) : streamFrom o t r [] = [] := rfl

theorem streamFrom_cons (o : TapOrder) (t r b : Byte) (text : List Byte) :
    streamFrom o t r (b :: text) = (b ^^^ (ksByte o r t).2) :: streamFrom o t (ksByte o r t).1 text := rfl

theorem ksSteps_succ (o : TapOrder) (t r k : Byte) (n : Nat) :
    ksSteps o t (n + 1) r k =
      ksSteps o t n (lfsrStep o r t).1 ((k <<< 1) ||| (BitVec.ofBool (lfsrStep o r t).2).setWidth 8) := rfl

end Sys2Proof.Machine
end

