-- ==== Sys2Proof/Laws/Validate.lean ====
section
/-! SUPPORT. What validation answers, bit by bit, and when it answers no flag (44_pipeline_commands.md R100). -/

namespace Sys2Proof.Machine

theorem byte_eq_zero_iff (f : Byte) : f = 0x00 ↔ ∀ j, j < 8 → f.getLsbD j = false := by
  revert f; decide

/-- The flags of validation: each bit of `ERR` is its own check, bits 6 and 7 are no check of `ENC` or `DEC`. -/
theorem validate_bits (chars : List Byte) (s : State) :
    (validate chars s).getLsbD 0 = (s.klen == 0) ∧
    (validate chars s).getLsbD 1 = chars.any (fun c => !isAlpha c) ∧
    (validate chars s).getLsbD 2 = s.keyovf ∧
    (validate chars s).getLsbD 3 = (decide (s.shift.toNat < 1) || decide (25 < s.shift.toNat)) ∧
    (validate chars s).getLsbD 4 = (s.seed == 0x00) ∧
    (validate chars s).getLsbD 5 = s.tapbad ∧
    (validate chars s).getLsbD 6 = false ∧ (validate chars s).getLsbD 7 = false := by
  unfold validate
  generalize (s.klen == 0) = a
  generalize (chars.any fun c => !isAlpha c) = b
  generalize s.keyovf = c
  generalize (decide (s.shift.toNat < 1) || decide (25 < s.shift.toNat)) = d
  generalize (s.seed == 0x00) = e
  generalize s.tapbad = f
  revert a b c d e f
  decide

/-- Validation answers no flag exactly when the parameter registers are valid. -/
theorem validate_eq_zero_iff {s : State} {chars : List Byte} (h : readKey s = .ok chars) :
    validate chars s = 0x00 ↔ s.ParametersValid := by
  obtain ⟨h0, h1, h2, h3, h4, h5, h6, h7⟩ := validate_bits chars s
  have hany := readKey_any h (fun c => !isAlpha c)
  rw [byte_eq_zero_iff]
  constructor
  · intro hz
    rw [hz 0 (by omega)] at h0
    rw [hz 1 (by omega)] at h1
    rw [hz 2 (by omega)] at h2
    rw [hz 3 (by omega)] at h3
    rw [hz 4 (by omega)] at h4
    rw [hz 5 (by omega)] at h5
    rw [← h1] at hany
    have h0' := h0.symm
    have h3' := h3.symm
    have h4' := h4.symm
    simp at h0' h3' h4'
    refine ⟨by omega, fun a ha => ?_, h2.symm, by omega, by omega, by simpa using h4', h5.symm⟩
    obtain ⟨c, _, hc⟩ := readKey_memRead h ha
    refine ⟨c, hc, ?_⟩
    by_contra hcon
    have := hany.mpr ⟨a, ha, c, hc, by simpa using hcon⟩
    cases this
  · rintro ⟨k1, k2, k3, k4, k5, k6, k7⟩ j hj
    have hnot : (chars.any fun c => !isAlpha c) = false := by
      rw [← Bool.not_eq_true]
      intro hh
      obtain ⟨a, ha, c, hc, hf⟩ := hany.mp hh
      obtain ⟨d, hd, hd'⟩ := k2 a ha
      rw [hc] at hd
      cases hd
      simp [hd'] at hf
    interval_cases j
    · rw [h0]
      simp
      omega
    · rw [h1, hnot]
    · rw [h2, k3]
    · rw [h3]
      simp
      omega
    · rw [h4]
      simpa using k6
    · rw [h5, k7]
    · exact h6
    · exact h7

/-- Validity depends on the parameter registers and the capacity alone. -/
theorem parametersValid_congr {s t : State} (h : s.ParametersValid) (hk : t.key = s.key) (hc : t.config = s.config)
    (hl : t.klen = s.klen) (ho : t.keyovf = s.keyovf) (hs : t.shift = s.shift) (he : t.seed = s.seed)
    (ht : t.tapbad = s.tapbad) : t.ParametersValid := by
  obtain ⟨a, b, c, d, e, f, g⟩ := h
  refine ⟨by omega, fun i hi => ?_, by rw [ho, c], by rw [hs]; exact d, by rw [hs]; exact e, by rw [he]; exact f,
    by rw [ht]; exact g⟩
  rw [memRead_congr hk hc]
  exact b i (by omega)

end Sys2Proof.Machine
end

