-- ==== Sys2Proof/Tests/Slice0.lean ====
section
/-! SUPPORT. Tests with expected results from 95_test_vectors.md and the rules of spec/, the checks of well-formedness
refusing ill-formed terms, and for every obligation with hypotheses a concrete witness of them. -/

namespace Sys2Proof.Tests

open Sys2Proof.Machine

/-! The checks of WellFormed refuse (30_encoding.md R59 to R62, 00_scope.md R12). -/

theorem wellFormed_refuses_character_over_255 : (Source.keypush 256).wellFormed = false := by decide
theorem wellFormed_refuses_shift_over_255 : (Source.setshift 256).wellFormed = false := by decide
theorem wellFormed_refuses_seed_over_255 : (Source.setseed 300).wellFormed = false := by decide
theorem wellFormed_refuses_position_over_255 : (Source.tapadd 256).wellFormed = false := by decide
theorem wellFormed_refuses_data_over_255 : (Source.data 256).wellFormed = false := by decide
theorem wellFormed_refuses_unprintable_key : (Source.key [0x41, 0x1F]).wellFormed = false := by decide
theorem wellFormed_refuses_del_in_key : (Source.key [0x7F]).wellFormed = false := by decide
theorem wellFormed_refuses_tap_list_over_255 : (Source.taps [0, 256]).wellFormed = false := by decide
theorem wellFormed_refuses_byte_list_over_255 : (Source.bytes [255, 256]).wellFormed = false := by decide
theorem wellFormed_refuses_no_key_buffer : (Config.mk 0 .stored 1).wellFormed = false := by decide
theorem wellFormed_refuses_no_output_byte : (Config.mk 1 .stored 0).wellFormed = false := by decide
theorem wellFormed_accepts_least_instance : (Config.mk 1 .stored 1).wellFormed = true := by decide

/-! Decoding: every command's word written out from the table of 30_encoding.md R53 (95_test_vectors.md 2.1). -/

theorem test_decode_keypush : decode 0b0000000101000001#16 = .ok (.keypush 0x41) := by decide
theorem test_decode_setshift : decode 0b0000001000000011#16 = .ok (.setshift 3) := by decide
theorem test_decode_setseed : decode 0b0000001110110101#16 = .ok (.setseed 0xB5) := by decide
theorem test_decode_tapadd : decode 0b0000010000001000#16 = .ok (.tapadd 8) := by decide
theorem test_decode_enc : decode 0b0000100000000000#16 = .ok .enc := by decide
theorem test_decode_dec : decode 0b0000100100000000#16 = .ok .dec := by decide
theorem test_decode_data : decode 0b0000101011111111#16 = .ok (.data 255) := by decide
theorem test_decode_end : decode 0b0000101100000000#16 = .ok .endJob := by decide
theorem test_decode_rst : decode 0b0000111100000000#16 = .ok .rst := by decide

/-- The illegal words of 95_test_vectors.md 2.1, each with its reason. -/
theorem test_decode_refuses :
    decode 0x0000 = .error (.opcodeUnassigned 0x00) ∧ decode 0x0500 = .error (.opcodeUnassigned 0x05) ∧
    decode 0x0C00 = .error (.opcodeUnassigned 0x0C) ∧ decode 0x1000 = .error (.opcodeUnassigned 0x10) ∧
    decode 0xFFFF = .error (.opcodeUnassigned 0xFF) ∧ decode 0x0801 = .error (.operandNotZero 0x08 0x01) ∧
    decode 0x09FF = .error (.operandNotZero 0x09 0xFF) ∧ decode 0x0B01 = .error (.operandNotZero 0x0B 0x01) ∧
    decode 0x0F01 = .error (.operandNotZero 0x0F 0x01) := by decide

/-- 20_memory.md R40: the two orders of the halves of a word. -/
theorem test_joinHalves : joinHalves .highFirst 0x0A 0xB5 = 0x0AB5 ∧ joinHalves .lowFirst 0x0A 0xB5 = 0xB50A := by decide

theorem test_decodeTableWord : decodeTableWord 16 0x0A48 = some (.data 72) ∧ decodeTableWord 16 0x0801 = none := by decide

/-! The assembler (30_encoding.md R59 to R62). -/

theorem test_assemble_lines :
    assembleLine "KEYPUSH ';' ; a key character".toList = some [0x013B] ∧
    assembleLine "  SETSEED 0xB5".toList = some [0x03B5] ∧ assembleLine "DATA 256".toList = none ∧
    assembleLine "ENC 3".toList = none ∧ assembleLine "; nothing".toList = some [] ∧
    assembleLine "BYTES ['H', 101]".toList = some [0x0A48, 0x0A65] ∧ assembleLine "KEY \"\"".toList = some [] := by decide

/-! Stages (95_test_vectors.md 2.3 to 2.5). -/

theorem test_isAlpha :
    [0x41, 0x5A, 0x61, 0x7A].all (fun c => isAlpha c) = true ∧
    [0x40, 0x5B, 0x60, 0x7B, 0x20, 0x30, 0x00, 0xC1, 0xFF].any (fun c => isAlpha c) = false := by decide

theorem test_vigenere :
    vigApply [250, 250, 0, 0] [0x5A, 0x62] true = [19, 251, 25, 1] ∧
    vigApply [3, 0, 255, 1] [0x7A, 0x42] false = [234, 255, 230, 0] := by decide

theorem test_caesar :
    caesarApply [255, 250, 0, 231] 25 true = [24, 19, 25, 0] ∧
    caesarApply [0, 24, 25, 255] 25 false = [231, 255, 0, 230] := by decide

theorem test_keystream_stored : streamApply .stored [0, 0, 0] 0xB5 0xB8 = [0xAD, 0xAC, 0xB0] := by decide
theorem test_keystream_significance : streamApply .significance [0, 0, 0] 0xB5 0xB8 = [0xAD, 0xF4, 0x4A] := by decide

/-! States the tests share. -/

/-- An instance with room for three key characters. -/
def smallInstance : Config := { keyMax := 3, tapOrder := .stored, outDepth := 1 }

/-- The bundle of 95_test_vectors.md 2.6: key `Key`, shift 7, seed `0xB5`, taps 3, 4, 5, 7. -/
def sampleBundle : Bundle := { key := [0x4B, 0x65, 0x79], shift := 7, seed := 0xB5, taps := 0xB8 }

/-- The bundle loaded, `IDLE`. -/
def ready : State :=
  { State.resetWith smallInstance with
    shift := 7, seed := 0xB5, taps := 0xB8, key := [(0, 0x4B), (1, 0x65), (2, 0x79)], klen := 3 }

/-- A job just started. -/
def running (m : Mode) : State := { ready with st := .run, mode := m, lfsr := 0xB5 }

/-- A fault taken by a command that was not permitted. -/
def faulted : State := { ready with st := .fault, err := 0x40 }

/-- A running job whose one output byte the host does not take. -/
def stalled : State := { running .forward with out := [0xF4], held := [0xF4], outReady := false }

/-- Every check of validation fails. -/
def invalid : State :=
  { State.resetWith smallInstance with shift := 26, key := [(0, 0x31)], klen := 1, keyovf := true, tapbad := true }

/-- The state with these words presented. -/
def withWords (s : State) (ws : List CommandWord) : State := { s with input := ws.map .word }

/-- The state with one pin event next. -/
def withPin (s : State) (e : PinEvent) : State := { s with input := [.pin e] }

/-- Whether an outcome is the next state given. -/
def reaches (o : Result) (t : State) : Bool :=
  match o with
  | .next u => u == t
  | .fault _ => false
  | .refused _ => false

theorem of_reaches {o : Result} {t : State} (h : reaches o t = true) : o = .next t := by
  cases o with
  | next u => exact congrArg _ (beq_iff_eq.mp h)
  | fault r => cases h
  | refused r => cases h

/-- The job before row 2 of the table of 95_test_vectors.md 2.6: the last key character, where the indexer wraps. -/
def lastKey (m : Mode) : State := { running m with kidx := 2, lfsr := 0x0D }

/-- A state whose port is stalled, with a word presented and this pin event directly behind it. -/
def stalledWith (s : State) (e : PinEvent) : State :=
  { s with held := [0xF4], outReady := false, input := [.word 0x0A00, .pin e] }

/-- The forward job after that row. -/
def afterByte : State := { running .forward with out := [0x3B], lfsr := 0xDF }

/-- 95_test_vectors.md 2.6, row 2. -/
theorem test_data_forward : exec (.data 108) (lastKey .forward) = .next afterByte := of_reaches (by decide +kernel)

theorem data_word_step : step (withWords (lastKey .forward) [0x0A6C]) = .next afterByte := of_reaches (by decide +kernel)

/-- 95_test_vectors.md 2.6, reverse mode. -/
theorem test_data_reverse : exec (.data 0x3B) (lastKey .reverse) =
    .next { running .reverse with out := [108], lfsr := 0xDF } := of_reaches (by decide +kernel)

/-! One step of each command (95_test_vectors.md 2.2, 2.6). -/

theorem test_keypush : exec (.keypush 0x41) State.reset = .next { State.reset with key := [(0, 0x41)], klen := 1 } := by rfl
theorem test_keypush_full : exec (.keypush 0x44) ready = .next { ready with keyovf := true } := by rfl
theorem test_setshift : exec (.setshift 0) ready = .next { ready with shift := 0 } := by rfl
theorem test_setseed : exec (.setseed 0x01) ready = .next { ready with seed := 1 } := by rfl
theorem test_tapadd : exec (.tapadd 1) ready = .next { ready with taps := 0xBA } := by rfl
theorem test_tapadd_out_of_range : exec (.tapadd 8) ready = .next { ready with tapbad := true } := by rfl
theorem test_enc : exec .enc ready = .next (running .forward) := by rfl
theorem test_enc_reports_every_failure : exec .enc invalid = .next { invalid with st := .fault, err := 0x3E } := by rfl
theorem test_dec : exec .dec ready = .next (running .reverse) := by rfl
theorem test_end : exec .endJob stalled = .next { State.resetWith smallInstance with
    out := [0xF4], held := [0xF4], outReady := false } := by rfl
theorem test_rst : exec .rst faulted = .next (State.resetWith smallInstance) := by rfl

/-- 60_exceptions.md R132: the two groups of flags. -/
theorem test_invalid_groups : isInvalidKey 0x04 = true ∧ isInvalidKey 0x38 = false ∧
    isInvalidParameter 0x20 = true ∧ isInvalidParameter 0x07 = false := by decide

theorem test_step_from_reset : step (State.reset.withFetchWord 16 0x0203) = .next { State.reset with shift := 3 } := by rfl

theorem test_status_port : faulted.statusPort = { st := 2, err := 0x40, fault := true } := by decide

/-! What the sample states satisfy. -/

theorem ready_valid : ready.ParametersValid :=
  (validate_eq_zero_iff (s := ready) (chars := [0x4B, 0x65, 0x79]) rfl).mp (by decide)

theorem invalid_not_valid : ¬ invalid.ParametersValid := fun h => absurd h.key_held (by decide)

theorem ready_inv : ready.Inv :=
  ⟨rfl, rfl, by decide, by decide, by decide, nofun, nofun, List.nil_suffix, by decide⟩

theorem running_inv (m : Mode) : (running m).Inv :=
  ⟨rfl, rfl, Nat.le_refl 3, fun _ => rfl, (fun h => by cases h),
    fun _ => ⟨rfl, parametersValid_congr ready_valid rfl rfl rfl rfl rfl rfl rfl, Nat.zero_lt_succ 2⟩,
    (fun h => by cases h), List.nil_suffix, Nat.zero_le 1⟩

theorem faulted_inv : faulted.Inv :=
  ⟨rfl, rfl, by decide, by decide, nofun, nofun, by decide, List.nil_suffix, by decide⟩

theorem stalled_inv : stalled.Inv :=
  ⟨rfl, rfl, by decide, by decide, nofun,
    fun _ => ⟨rfl, parametersValid_congr ready_valid rfl rfl rfl rfl rfl rfl rfl, by decide⟩, nofun, List.suffix_rfl,
    by decide⟩

theorem ready_holds : ready.Holds sampleBundle := ⟨rfl, rfl, rfl, rfl, rfl, rfl⟩

theorem sample_valid : sampleBundle.valid = true := by decide

theorem sample_taps : isTapSet sampleBundle.taps [3, 4, 5, 7] := by
  refine ⟨by decide, fun j hj => ?_⟩
  interval_cases j <;> decide

/-! Witnesses: concrete states and operands that meet all hypotheses of an obligation, clause by clause. -/

theorem witness_ResetRegisterValues : State.reset = State.reset ∧
    ∃ s : State, State.resetWith smallInstance = pinReset s := ⟨rfl, running .reverse, rfl⟩

theorem witness_ResetEventsLeaveResetRegisters :
    (withPin stalled .rst).input = .pin .rst :: [] ∧ (running .reverse).st = .run := ⟨rfl, rfl⟩

theorem witness_DecodeInvertsEncode : (Instr.data 255).wellFormed = true ∧ Instr.endJob.wellFormed = true := ⟨rfl, rfl⟩

theorem witness_EncodeInvertsDecode : decode 0x04FF = .ok (.tapadd 255) ∧ decode 0x0900 = .ok .dec := by decide

theorem witness_OpcodeMapMatchAndMask : ready.st = .idle ∧
    exec (startCommand .forward) ready = .next (running .forward) ∧
    exec (startCommand .reverse) ready = .next (running .reverse) ∧
    (running .forward).st = .run ∧ (running .reverse).st = .run := ⟨rfl, rfl, rfl, rfl, rfl⟩

theorem witness_IllegalWords :
    ((∃ e, decode 0x0F01 = .error e) ∧ ready.st ≠ .fault) ∧
    ((∃ e, decode 0x0000 = .error e) ∧ faulted.st = .fault) := ⟨⟨⟨_, rfl⟩, by decide⟩, ⟨_, rfl⟩, rfl⟩

theorem witness_PseudoInstructionsExpand :
    [0x20, 0x7E].all printableCode = true ∧ [0, 255].all operandFits = true := by decide

theorem witness_StepRunsDecodedCommand :
    (withWords (running .forward) [0x0A48]).input = .word 0x0A48 :: [] ∧
    (withWords (running .forward) [0x0A48]).cmdReady = true ∧ decode 0x0A48 = .ok (.data 72) := ⟨rfl, rfl, rfl⟩

/-- One witness per test, and for the table of permitted commands both states that permit one. -/
theorem witness_StepOrderOfTests :
    decode 0x0F00 = .ok .rst ∧ (decode 0x0A00 ≠ .ok .rst ∧ faulted.st = .fault) ∧
    (ready.st ≠ .fault ∧ ∃ e, decode 0x1000 = .error e) ∧
    (ready.st ≠ .fault ∧ decode 0x0B00 = .ok .endJob ∧ permittedIn .endJob ready.st = false) ∧
    (ready.st ≠ .fault ∧ decode 0x0800 = .ok .enc ∧ permittedIn .enc ready.st = true ∧
      exec .enc ready = .next (running .forward) ∧ ready.ParametersValid) ∧
    (invalid.st ≠ .fault ∧ permittedIn .dec invalid.st = true ∧ ¬ invalid.ParametersValid ∧
      exec .dec invalid = .next { invalid with st := .fault, err := 0x3E }) ∧
    ((lastKey .forward).st ≠ .fault ∧ decode 0x0A6C = .ok (.data 108) ∧
      permittedIn (.data 108) (lastKey .forward).st = true ∧ exec (.data 108) (lastKey .forward) = .next afterByte) :=
  ⟨rfl, ⟨by decide, rfl⟩, ⟨by decide, _, rfl⟩, ⟨by decide, rfl, rfl⟩, ⟨by decide, rfl, rfl, rfl, ready_valid⟩,
    ⟨by decide, rfl, invalid_not_valid, rfl⟩,
    by decide, rfl, rfl, test_data_forward⟩

theorem witness_NothingPresentedHoldsState : State.reset.input = [] := rfl

/-- The last room and the full buffer, `RUN`, a cell below `KLEN`, and each of the three failures `ENC` finds. -/
theorem witness_KeypushAppendsCharacter :
    ({ ready with klen := 2 }.st = .idle ∧ { ready with klen := 2 }.klen < smallInstance.keyMax) ∧
    (ready.st = .idle ∧ ¬ ready.klen < ready.config.keyMax) ∧ (running .forward).st = .run ∧
    (exec (.setshift 1) ready = .next { ready with shift := 1 } ∧ 2 < ready.klen) ∧
    (State.reset.st = .idle ∧ State.reset.klen = 0 ∧ exec .enc State.reset =
      .next { State.reset with st := .fault, err := 0x19 }) ∧
    (invalid.st = .idle ∧ exec .enc invalid = .next { invalid with st := .fault, err := 0x3E } ∧
      0 < invalid.klen ∧ memRead invalid 0 = .ok 0x31 ∧ isAlpha 0x31 = false ∧ invalid.keyovf = true) :=
  ⟨⟨rfl, by decide⟩, ⟨rfl, by decide⟩, rfl, ⟨rfl, by decide⟩, ⟨rfl, rfl, rfl⟩, rfl, rfl, by decide, rfl, by decide, rfl⟩

/-- Both ends of the range of values that fail. -/
theorem witness_SetshiftReplacesShift : ready.st = .idle ∧ (running .reverse).st = .run ∧
    ((0#8).toNat = 0 ∧ exec .enc { ready with shift := 0 } = .next { ready with shift := 0, st := .fault, err := 0x08 }) ∧
    (26 ≤ (26#8).toNat ∧
      exec .enc { ready with shift := 26 } = .next { ready with shift := 26, st := .fault, err := 0x08 }) ∧
    (26 ≤ (255#8).toNat ∧
      exec .enc { ready with shift := 255 } = .next { ready with shift := 255, st := .fault, err := 0x08 }) :=
  ⟨rfl, rfl, ⟨rfl, rfl⟩, ⟨by decide, rfl⟩, by decide, rfl⟩

theorem witness_SetseedReplacesSeed : ready.st = .idle ∧ (running .forward).st = .run ∧
    exec .enc { ready with seed := 0 } = .next { ready with seed := 0, st := .fault, err := 0x10 } := ⟨rfl, rfl, rfl⟩

/-- Both sides of the boundary between 7 and 8. -/
theorem witness_TapaddAddsPosition : ready.st = .idle ∧ (7#8).toNat ≤ 7 ∧ 7 < (8#8).toNat ∧ (running .forward).st = .run ∧
    (exec (.tapadd 7) ready = .next ready ∧ ready.taps.getLsbD 7 = true) ∧
    ({ ready with tapbad := true }.tapbad = true ∧ exec .enc { ready with tapbad := true } =
      .next { ready with tapbad := true, st := .fault, err := 0x20 }) :=
  ⟨rfl, by decide, by decide, rfl, ⟨rfl, rfl⟩, rfl, rfl⟩

theorem witness_ProtocolFault :
    ((running .forward).st = .run ∧
      Instr.dec ∈ [.keypush 0x41, .setshift 0x41, .setseed 0x41, .tapadd 0x41, .enc, .dec]) ∧
    (ready.st = .idle ∧ Instr.data 0x41 ∈ [.data 0x41, .endJob]) :=
  ⟨⟨rfl, by decide⟩, rfl, by decide⟩

theorem witness_FaultStateDiscardsWords : (withWords faulted [0x0141]).st = .fault ∧
    (withWords faulted [0x0141]).input = .word 0x0141 :: [] ∧ (withWords faulted [0x0141]).cmdReady = true ∧
    decode 0x0141 ≠ .ok .rst := ⟨rfl, rfl, rfl, by decide⟩

theorem witness_FaultsArePrecise : ready.st ≠ .fault ∧
    takeWord 0x0A41 ready = .next { ready with st := .fault, err := 0x40 } ∧ decode 0x0800 ≠ .ok .rst :=
  ⟨by decide, rfl, by decide⟩

/-- One witness for each of the three causes. -/
theorem witness_FaultFlagsByCause :
    (ready.st ≠ .fault ∧ takeWord 0xFFFF ready = .next { ready with st := .fault, err := 0x80 }) ∧
    ((running .forward).st ≠ .fault ∧
      takeWord 0x0800 (running .forward) = .next { running .forward with st := .fault, err := 0x40 }) ∧
    (invalid.st ≠ .fault ∧ takeWord 0x0900 invalid = .next { invalid with st := .fault, err := 0x3E }) :=
  ⟨⟨by decide, rfl⟩, ⟨by decide, rfl⟩, by decide, rfl⟩

/-- `RST` taken, the pin taken first and behind a stalled word, and a step that takes neither: a word discarded. -/
theorem witness_FaultStateChangesNothing : faulted.st = .fault ∧
    ((withWords faulted [0x0F00]).takesWord 0x0F00 [] ∧ decode 0x0F00 = .ok .rst ∧
      step (withWords faulted [0x0F00]) = .next (State.resetWith smallInstance)) ∧
    ((withPin faulted .rst).takesPin .rst [] ∧ step (withPin faulted .rst) = .next (State.resetWith smallInstance)) ∧
    (stalledWith faulted .rst).takesPin .rst [.word 0x0A00] ∧
    (∀ w rest, (withWords faulted [0x0800]).takesWord w rest → decode w ≠ .ok .rst) ∧
    (∀ rest, ¬ (withWords faulted [0x0800]).takesPin .rst rest) ∧
    step (withWords faulted [0x0800]) = .next faulted := by
  refine ⟨rfl, ⟨⟨rfl, rfl⟩, rfl, rfl⟩, ⟨.inl rfl, rfl⟩, .inr ⟨_, _, rfl, rfl, rfl⟩, ?_, ?_, rfl⟩
  · intro w rest h
    rw [((takesWord_unique (s := withWords faulted [0x0800]) ⟨rfl, rfl⟩).1 w rest h).1]
    decide
  · exact (takesWord_unique (s := withWords faulted [0x0800]) ⟨rfl, rfl⟩).2 .rst

theorem ready_readable : ∀ a, a < ready.klen → ∃ c, memRead ready a = .ok c :=
  fun a ha => (ready_valid.key_alphabetic a ha).imp fun _ h => h.1

theorem invalid_readable : ∀ a, a < invalid.klen → ∃ c, memRead invalid a = .ok c := fun _ ha =>
  (readKey_memRead (l := [0x31]) rfl ha).imp fun _ h => h.2

/-- A valid and an invalid bundle. -/
theorem witness_ValidationReportsEveryFailure :
    (ready.st = .idle ∧ ∀ a, a < ready.klen → ∃ c, memRead ready a = .ok c) ∧
    (invalid.st = .idle ∧ ∀ a, a < invalid.klen → ∃ c, memRead invalid a = .ok c) :=
  ⟨⟨rfl, ready_readable⟩, rfl, invalid_readable⟩

theorem witness_EncStartsForwardJob : (ready.st = .idle ∧ ready.ParametersValid) ∧ (running .reverse).st = .run ∧
    (invalid.st = .idle ∧ (∀ a, a < invalid.klen → ∃ c, memRead invalid a = .ok c) ∧ ¬ invalid.ParametersValid) :=
  ⟨⟨rfl, ready_valid⟩, rfl, rfl, invalid_readable, invalid_not_valid⟩

/-- The least valid bundle: one letter, shift 1, seed 1; and the same failures as for `ENC`. -/
theorem witness_DecStartsReverseJob :
    (∃ s : State, s.st = .idle ∧ s.klen = 1 ∧ s.shift = 1 ∧ s.seed = 1 ∧ s.ParametersValid) ∧
    (running .forward).st = .run ∧
    (invalid.st = .idle ∧ (∀ a, a < invalid.klen → ∃ c, memRead invalid a = .ok c) ∧ ¬ invalid.ParametersValid) := by
  refine ⟨⟨{ State.reset with key := [(0, 0x7A)], klen := 1, shift := 1, seed := 1 }, rfl, rfl, rfl, rfl, ?_⟩, rfl, rfl,
    invalid_readable, invalid_not_valid⟩
  exact (validate_eq_zero_iff (chars := [0x7A]) rfl).mp (by decide)

/-- The last key position, where the indexer wraps. -/
theorem witness_DataForward : (lastKey .forward).st = .run ∧ (lastKey .forward).mode = .forward ∧
    memRead (lastKey .forward) (lastKey .forward).kidx = .ok 0x79 ∧ isAlpha 0x79 = true := ⟨rfl, rfl, rfl, by decide⟩

theorem witness_DataReverse : (running .reverse).st = .run ∧ (running .reverse).mode = .reverse ∧
    memRead (running .reverse) (running .reverse).kidx = .ok 0x4B ∧ isAlpha 0x4B = true := ⟨rfl, rfl, rfl, by decide⟩

theorem witness_AdvanceIgnoresModeAndByte : (lastKey .forward).st = .run ∧
    exec (.data 108) (lastKey .forward) = .next afterByte ∧
    exec (.data 0x3B) { lastKey .forward with mode := .reverse } =
      .next { running .reverse with out := [108], lfsr := 0xDF } := ⟨rfl, test_data_forward, test_data_reverse⟩

theorem witness_KeyValueOfLetters : isAlpha 0x41 = true ∧ isAlpha 0x5A = true ∧ isAlpha 0x61 = true ∧ isAlpha 0x7A = true := by
  decide

theorem witness_KeyIndexIsPositionModLength : 1 ≤ 1 ∧ 1 ≤ ready.klen := by decide

theorem witness_LfsrStepBits : 6 < 7 := by decide

theorem witness_KeystreamBytePacksEightSteps : 7 < 8 := by decide

theorem witness_FirstKeystreamByteIsReversedSeed : ready.st = .idle ∧ ready.ParametersValid ∧
    exec (startCommand .reverse) ready = .next (running .reverse) := ⟨rfl, ready_valid, rfl⟩

theorem witness_VigenereStageOnSequences : ([10, 11, 12] : List Byte)[2]? = some 12 ∧
    ([0x41, 0x42] : List Byte)[2 % ([0x41, 0x42] : List Byte).length]? = some 0x41 := by decide

theorem witness_StreamStageOnSequences : ([10, 11] : List Byte)[1]? = some 11 := by decide

theorem witness_RunningJobComputesPipeline : sampleBundle.valid = true ∧ ready.st = .idle ∧
    (withWords ready [0x0800, 0x0A48, 0x0B00]).Holds sampleBundle ∧
    (withWords ready [0x0800, 0x0A48, 0x0B00]).HostTakesOutput ∧
    (withWords ready [0x0800, 0x0A48, 0x0B00]).input = presenting (runCommands .forward [72]) ++ [] :=
  ⟨sample_valid, rfl, ⟨rfl, rfl, rfl, rfl, rfl, rfl⟩, ⟨rfl, rfl, by decide⟩, rfl⟩

/-- The key fills the buffer: the boundary of the capacity. -/
theorem witness_WholeJobComputesPipeline : sampleBundle.valid = true ∧ isTapSet sampleBundle.taps [3, 4, 5, 7] ∧
    sampleBundle.key.length ≤ smallInstance.keyMax ∧
    ∃ s : State, s.config = smallInstance ∧ s.Cleared ∧ s.HostTakesOutput ∧
      s.input = presenting (loadCommands sampleBundle [3, 4, 5, 7] ++ runCommands .reverse [0xF4]) ++ [] :=
  ⟨sample_valid, sample_taps, by decide,
    { State.resetWith smallInstance with
      input := presenting (loadCommands sampleBundle [3, 4, 5, 7] ++ runCommands .reverse [0xF4]) ++ [] },
    rfl, rfl, ⟨rfl, rfl, by decide⟩, rfl⟩

theorem witness_RoundTrip : sampleBundle.valid = true ∧ isTapSet sampleBundle.taps [7, 5, 4, 3, 3] ∧
    sampleBundle.key.length ≤ smallInstance.keyMax ∧
    ∃ s : State, s.config = smallInstance ∧ s.Cleared ∧ s.HostTakesOutput ∧
      s.input = presenting ((loadCommands sampleBundle [7, 5, 4, 3, 3] ++ runCommands .forward [72]) ++
        (loadCommands sampleBundle [7, 5, 4, 3, 3] ++
          runCommands .reverse (encrypt s.config.tapOrder [72] sampleBundle))) ++ [] := by
  refine ⟨sample_valid, ⟨by decide, fun j hj => by interval_cases j <;> decide⟩, by decide,
    { State.resetWith smallInstance with
      input := presenting ((loadCommands sampleBundle [7, 5, 4, 3, 3] ++ runCommands .forward [72]) ++
        (loadCommands sampleBundle [7, 5, 4, 3, 3] ++ runCommands .reverse (encrypt .stored [72] sampleBundle))) ++ [] },
    rfl, rfl, ⟨rfl, rfl, by decide⟩, rfl⟩

theorem witness_EndClearsEveryRegister : (running .forward).st = .run ∧ ready.st = .idle := ⟨rfl, rfl⟩

theorem witness_RstClearsEveryRegister : (0x01 : Byte) ≠ 0x00 ∧ (0xFF : Byte) ≠ 0x00 ∧ faulted.st = .fault ∧
    Instr.enc ≠ .rst := by decide

theorem witness_EmptyJob : (ready.st = .idle ∧ ready.ParametersValid) ∧
    (invalid.st = .idle ∧ ¬ invalid.ParametersValid ∧
      exec (startCommand .reverse) invalid = .next { invalid with st := .fault, err := 0x3E }) :=
  ⟨⟨rfl, ready_valid⟩, rfl, invalid_not_valid, rfl⟩

theorem witness_ResetSatisfiesInvariants : (Config.mk 1 .significance 1).wellFormed = true := by decide

/-- A step of each kind from a state that satisfies the invariants: a job starts, a stalled port waits, a fault state. -/
theorem witness_StepKeepsInvariants :
    (ready.Inv ∧ step ready = .next ready) ∧ (stalled.Inv ∧ step stalled = .next stalled) ∧
    (faulted.Inv ∧ step faulted = .next faulted) ∧
    (running .reverse).Inv := ⟨⟨ready_inv, rfl⟩, ⟨stalled_inv, rfl⟩, ⟨faulted_inv, rfl⟩, running_inv .reverse⟩

/-- A state with a `DATA` word presented to a running job satisfies the invariants and steps. -/
theorem witness_InvariantStatesNeverStop : (withWords (running .forward) [0x0A48]).Inv :=
  ⟨rfl, rfl, by decide, by decide, nofun,
    fun _ => ⟨rfl, parametersValid_congr ready_valid rfl rfl rfl rfl rfl rfl rfl, by decide⟩, nofun, List.nil_suffix,
    by decide⟩

theorem witness_ParametersFrozenWhileRunning : (lastKey .forward).st = .run ∧ afterByte.st = .run ∧
    step (withWords (lastKey .forward) [0x0A6C]) =
      .next afterByte := ⟨rfl, rfl, data_word_step⟩

theorem witness_InstanceParametersFixed :
    step (withPin ready .rst) = .next (State.resetWith smallInstance) := rfl

/-- A `KEYPUSH`, and the pin behind a stalled word. -/
theorem witness_KeySpaceChangesOnlyByItsCommands : Memory.wf ready.key ∧
    (step (withWords (State.resetWith smallInstance) [0x0141]) =
      .next { State.resetWith smallInstance with key := [(0, 0x41)], klen := 1 } ∧
    memRead { State.resetWith smallInstance with key := [(0, 0x41)], klen := 1 } 0 ≠
      memRead (State.resetWith smallInstance) 0) ∧
    (step (stalledWith ready .rst) =
      .next { State.resetWith smallInstance with outReady := false, input := [.word 0x0A00] } ∧
    memRead { State.resetWith smallInstance with outReady := false, input := [.word 0x0A00] } 2 ≠ memRead ready 2) :=
  ⟨by decide, ⟨rfl, nofun⟩, rfl, nofun⟩

/-- Both flags cleared by `RST`, and by the pin behind a stalled word. -/
theorem witness_StickyFlagsStay : invalid.tapbad = true ∧ invalid.keyovf = true ∧
    step (withWords invalid [0x0F00]) = .next (State.resetWith smallInstance) ∧
    step (stalledWith invalid .rst) =
      .next { State.resetWith smallInstance with outReady := false, input := [.word 0x0A00] } ∧
    (State.resetWith smallInstance).tapbad = false ∧ (State.resetWith smallInstance).keyovf = false :=
  ⟨rfl, rfl, rfl, rfl, rfl, rfl⟩

/-- A `DATA` taken in `RUN`, the pin taken behind a stalled word, and a step that takes neither: a `DATA` in `IDLE`. -/
theorem witness_OutIsAppendOnly :
    ((withWords (lastKey .forward) [0x0A6C]).takesWord 0x0A6C [] ∧ decode 0x0A6C = .ok (.data 108) ∧
      (lastKey .forward).st = .run ∧ step (withWords (lastKey .forward) [0x0A6C]) = .next afterByte) ∧
    (stalledWith (running .forward) .rst).takesPin .rst [.word 0x0A00] ∧
    ((withWords ready [0x0A6C]).st ≠ .run ∧ (∀ rest, ¬ (withWords ready [0x0A6C]).takesPin .rst rest) ∧
      step (withWords ready [0x0A6C]) = .next { ready with st := .fault, err := 0x40 }) :=
  ⟨⟨⟨rfl, rfl⟩, rfl, rfl, data_word_step⟩, .inr ⟨_, _, rfl, rfl, rfl⟩, by decide,
    (takesWord_unique (s := withWords ready [0x0A6C]) ⟨rfl, rfl⟩).2 .rst, rfl⟩

/-- A byte taken at once and a byte held, and each pin event. -/
theorem witness_OutputPortTransfers :
    ((lastKey .forward).st = .run ∧ (lastKey .forward).outReady = true ∧ exec (.data 108) (lastKey .forward) =
      .next afterByte) ∧
    (exec (.data 72) { running .forward with outReady := false } = .next { running .forward with
      outReady := false, out := [0xF4], held := [0xF4], kidx := 1, lfsr := 0x35 }) ∧
    (exec .endJob stalled = .next { State.resetWith smallInstance with
      out := [0xF4], held := [0xF4], outReady := false } ∧ ∀ b, Instr.endJob ≠ .data b) ∧
    (withPin stalled (.outReady true)).input = .pin (.outReady true) :: [] ∧
    (withPin stalled (.outReady false)).input = .pin (.outReady false) :: [] ∧
    (withPin stalled .takeByte).input = .pin .takeByte :: [] :=
  ⟨⟨rfl, rfl, test_data_forward⟩, of_reaches (by decide +kernel), ⟨rfl, nofun⟩, rfl, rfl, rfl⟩

theorem witness_StalledCommandPortWaits : stalled.cmdReady = false ∧
    (withWords stalled [0x0A00]).input = [.word 0x0A00] ∧
    (withWords stalled [0x0A00, 0x0B00]).input = .word 0x0A00 :: .word 0x0B00 :: [] ∧
    { stalled with input := [.word 0x0A00, .pin .takeByte] }.input = .word 0x0A00 :: .pin .takeByte :: [] := ⟨rfl, rfl, rfl, rfl⟩

theorem witness_BackPressureChangesNoValue :
    exec .enc ready = .next (running .forward) ∧ exec (.data 108) (lastKey .forward) =
      .next afterByte := ⟨rfl, test_data_forward⟩

end Sys2Proof.Tests
end

/-! The scope of the model (00_scope.md): the parameters of the instance. -/

namespace Sys2Proof.Proofs

open Sys2Proof.Machine

/-- A pin event, the reset pin among them, keeps the instance. -/
@[simp] theorem applyPin_config (e : PinEvent) (s : State) : (applyPin e s).config = s.config := by
  rcases applyPin_cases e s with h | ⟨_, h⟩ | h <;> simp [h]

/-- A transferred word keeps the instance, whether it is illegal or a command. -/
theorem takeWord_config {w : CommandWord} {s t : State} (h : takeWord w s = .next t) : t.config = s.config := by
  rcases takeWord_next h with ⟨_, _, rfl⟩ | ⟨_, _, hexec⟩
  · split
    · rfl
    · exact raiseFault_config _ s
  · exact (exec_host hexec).1

/-- Settles O52: each of the three things a step can do keeps the instance (00_scope.md R12). -/
theorem instanceParametersFixed : Obligations.InstanceParametersFixed := by
  intro s t h
  rcases step_next h with ⟨rfl, _⟩ | ⟨e, rest, _, rfl⟩ | ⟨w, rest, _, hword⟩
  · rfl
  · exact applyPin_config e { s with input := rest }
  · exact takeWord_config (s := { s with input := rest }) hword

end Sys2Proof.Proofs

/-! The architectural state (10_state.md): its values after reset, its invariants, and what a step may change. -/

namespace Sys2Proof.Proofs

open Sys2Proof.Machine

/-! What the events leave, for every state. -/

/-- The return from a fault leaves the reset registers (70_reset_and_hazards.md R135). -/
theorem clearRegisters_eq_resetWith (s : State) :
    clearRegisters s = { State.resetWith s.config with
      out := s.out, held := s.held, outReady := s.outReady, input := s.input } := rfl

/-- The reset pin leaves the reset state, but for the host and the instance (70_reset_and_hazards.md R135, R137). -/
theorem pinReset_eq_resetWith (s : State) :
    pinReset s = { State.resetWith s.config with outReady := s.outReady, input := s.input } := rfl

/-- A pin event other than the reset pin writes the output port alone (20_memory.md R37). -/
theorem applyPin_of_ne_rst {e : PinEvent} (he : e ≠ .rst) (s : State) :
    applyPin e s = { s with outReady := (applyPin e s).outReady, held := (applyPin e s).held } := by
  cases e with
  | rst => exact absurd rfl he
  | outReady level => rfl
  | takeByte => rfl

/-- The host's taking of bytes leaves the youngest of them. -/
theorem applyPin_held_suffix (e : PinEvent) (s : State) : (applyPin e s).held <:+ s.held := by
  rcases applyPin_cases e s with h | ⟨level, h⟩ | h <;> rw [h]
  · exact List.nil_suffix
  · cases level
    · exact List.suffix_rfl
    · exact List.nil_suffix
  · exact List.tail_suffix s.held

/-- No transferred word touches the host's events. -/
theorem takeWord_input {w : CommandWord} {s t : State} (h : takeWord w s = .next t) : t.input = s.input := by
  rcases takeWord_next h with ⟨_, _, rfl⟩ | ⟨_, _, hexec⟩
  · split
    · rfl
    · exact raiseFault_input _ s
  · exact (exec_host hexec).2.1

/-- A word that is a command has the command's meaning (44_pipeline_commands.md R99). -/
theorem takeWord_of_decode {w : CommandWord} {i : Instr} (h : decode w = .ok i) (s : State) :
    takeWord w s = exec i s := by
  simp only [takeWord, h]

/-- An out of range position sets `TAPBAD`; no position clears it (10_state.md R21). -/
theorem addTap_tapbad (p : Byte) (s : State) : (addTap p s).tapbad = (!tapInRange p || s.tapbad) := by
  cases hp : tapInRange p with
  | true => simp [addTap_of_inRange p s hp]
  | false => simp [addTap_of_outOfRange p s hp]

/-! The invariants of R30 to R32. -/

/-- The reset state of a legal instance satisfies the invariants. -/
theorem resetWith_inv {c : Config} (hc : c.wellFormed = true) : (State.resetWith c).Inv where
  config_legal := hc
  key_cells := rfl
  key_fits := Nat.zero_le _
  overflow_full := by simp
  idle_rest := by simp
  run_bundle := by simp
  fault_cause := by simp
  held_last := List.nil_suffix
  held_fits := Nat.zero_le _

/-- Settles O48: the parameters given at `State.reset` are legal ones. -/
theorem resetSatisfiesInvariants : Obligations.ResetSatisfiesInvariants :=
  ⟨resetWith_inv rfl, fun _ => resetWith_inv⟩

section
variable {s t : State}

/-- The host's part of the state may be replaced, as long as only the youngest bytes stay held. -/
theorem inv_withHost (hs : s.Inv) {held : List Byte} (hheld : held <:+ s.held) (ready : Bool)
    (input : List HostEvent) : { s with held := held, outReady := ready, input := input }.Inv :=
  { hs with
    run_bundle := fun hst => by
      obtain ⟨herr, hvalid, hkidx⟩ := hs.run_bundle hst
      exact ⟨herr, parametersValid_congr hvalid rfl rfl rfl rfl rfl rfl rfl, hkidx⟩
    held_last := hheld.trans hs.held_last
    held_fits := hheld.length_le.trans hs.held_fits }

theorem inv_withInput (hs : s.Inv) (input : List HostEvent) : { s with input := input }.Inv :=
  inv_withHost hs List.suffix_rfl s.outReady input

/-- Taking a fault keeps the invariants when its flags are of one cause (60_exceptions.md R128). -/
theorem raiseFault_inv (hs : s.Inv) {f : Byte} (hne : f ≠ 0x00)
    (hcause : f = 0x40 ∨ f = 0x80 ∨ f &&& 0xC0 = 0x00) : (raiseFault f s).Inv :=
  { hs with
    idle_rest := by simp
    run_bundle := by simp
    fault_cause := fun _ => ⟨hne, hcause⟩ }

theorem clearRegisters_inv (hs : s.Inv) : (clearRegisters s).Inv :=
  { resetWith_inv hs.config_legal with
    run_bundle := by simp
    held_last := hs.held_last
    held_fits := hs.held_fits }

theorem pinReset_inv (hs : s.Inv) : (pinReset s).Inv :=
  inv_withHost (resetWith_inv hs.config_legal) List.suffix_rfl s.outReady s.input

theorem applyPin_inv (hs : s.Inv) (e : PinEvent) : (applyPin e s).Inv := by
  by_cases he : e = .rst
  · subst he
    exact pinReset_inv hs
  · rw [applyPin_of_ne_rst he s]
    exact inv_withHost hs (applyPin_held_suffix e s) _ s.input

/-- In `IDLE` the parameters other than the key are free (10_state.md R30). -/
theorem inv_withParameters (hs : s.Inv) (hidle : s.st = .idle) (shift seed taps : Byte) (tapbad : Bool) :
    { s with shift := shift, seed := seed, taps := taps, tapbad := tapbad }.Inv :=
  { hs with
    run_bundle := by simp [hidle] }

/-- A push keeps the listed cells those below `KLEN`, and sets `KEYOVF` on a full buffer only (10_state.md R22, R23). -/
theorem pushKey_inv {c : Byte} (hs : s.Inv) (hidle : s.st = .idle) (h : pushKey c s = .next t) : t.Inv := by
  rcases pushKey_next h with ⟨hroom, rfl⟩ | ⟨hfull, rfl⟩
  · exact { hs with
      key_cells := Memory.range_write c hs.key_cells
      key_fits := hroom
      overflow_full := fun hovf => absurd (hs.overflow_full hovf) hroom.ne
      run_bundle := by simp [hidle] }
  · exact { hs with
      overflow_full := fun _ => hs.key_fits.antisymm (Nat.le_of_not_lt hfull)
      run_bundle := by simp [hidle] }

/-- The flags of validation are among bits 0 to 5 (60_exceptions.md R128). -/
theorem validate_and_high (chars : List Byte) (s : State) : validate chars s &&& 0xC0 = 0x00 := by
  obtain ⟨-, -, -, -, -, -, h6, h7⟩ := validate_bits chars s
  rw [byte_eq_zero_iff]
  intro j hj
  rw [BitVec.getLsbD_and]
  obtain hlow | rfl | rfl : j < 6 ∨ j = 6 ∨ j = 7 := by omega
  · have hmask : BitVec.getLsbD (0xC0 : Byte) j = false := by interval_cases j <;> rfl
    rw [hmask, Bool.and_false]
  · rw [h6, Bool.false_and]
  · rw [h7, Bool.false_and]

/-- A job starts on valid parameters with `KIDX` 0, and otherwise validation raises its flags (44_pipeline_commands.md
R101, R102). -/
theorem startJob_inv {m : Mode} (hs : s.Inv) (hidle : s.st = .idle) (h : startJob m s = .next t) : t.Inv := by
  obtain ⟨chars, hkey, ⟨hzero, rfl⟩ | ⟨hne, rfl⟩⟩ := startJob_next h
  · have hvalid : s.ParametersValid := (validate_eq_zero_iff hkey).mp hzero
    exact { hs with
      idle_rest := by simp
      run_bundle := fun _ => ⟨(hs.idle_rest hidle).1,
        parametersValid_congr hvalid rfl rfl rfl rfl rfl rfl rfl, hvalid.key_nonempty⟩
      fault_cause := by simp }
  · exact raiseFault_inv hs hne (.inr (.inr (validate_and_high chars s)))

/-- The indexer stays below the key length (41_vigenere_stage.md R72). -/
theorem advanceKidx_lt {kidx klen : Nat} (h : kidx < klen) : advanceKidx kidx klen < klen := by
  unfold advanceKidx
  split <;> omega

/-- An emitted byte is the last of `OUT`, whether it is held or taken at once. -/
theorem emit_held_suffix (v : Byte) (h : s.held <:+ s.out) : (emit v s).held <:+ (emit v s).out := by
  simp only [emit_held, emit_out]
  split
  · exact List.nil_suffix
  · obtain ⟨taken, htaken⟩ := h
    exact ⟨taken, by rw [← htaken, List.append_assoc]⟩

/-- A port that takes a command has room for the byte it emits (20_memory.md R37). -/
theorem emit_held_fits (v : Byte) (h : s.cmdReady = true) : (emit v s).held.length ≤ s.config.outDepth := by
  have hroom : s.held.length < s.config.outDepth := by simpa [State.cmdReady] using h
  rw [emit_held]
  split
  · exact Nat.zero_le _
  · simpa using hroom

/-- `DATA` in `RUN` moves the indexer and the output port, and keeps the bundle (10_state.md R31). -/
theorem transformByte_inv {b : Byte} (hs : s.Inv) (hrun : s.st = .run) (hready : s.cmdReady = true)
    (h : transformByte b s = .next t) : t.Inv := by
  obtain ⟨herr, hvalid, hkidx⟩ := hs.run_bundle hrun
  obtain ⟨c, -, rfl⟩ := transformByte_next h
  exact { hs with
    idle_rest := by simp [hrun]
    run_bundle := fun _ =>
      ⟨herr, parametersValid_congr hvalid rfl rfl rfl rfl rfl rfl rfl, advanceKidx_lt hkidx⟩
    held_last := emit_held_suffix _ hs.held_last
    held_fits := emit_held_fits _ hready }

/-- Every command keeps the invariants when the command port can take it. -/
theorem exec_inv {i : Instr} (hs : s.Inv) (hready : s.cmdReady = true) (h : exec i s = .next t) : t.Inv := by
  rcases exec_next h with ⟨_, _, rfl⟩ | ⟨_, _, rfl⟩ | hp
  · exact hs
  · exact raiseFault_inv hs (by decide) (.inl rfl)
  · rw [exec_permitted hp] at h
    cases i with
    | keypush c => exact pushKey_inv hs (by simpa [permittedIn] using hp) h
    | setshift v => cases h; exact inv_withParameters hs (by simpa [permittedIn] using hp) v _ _ _
    | setseed v => cases h; exact inv_withParameters hs (by simpa [permittedIn] using hp) _ v _ _
    | tapadd p =>
      cases h
      rw [addTap_eq]
      exact inv_withParameters hs (by simpa [permittedIn] using hp) _ _ _ _
    | enc => exact startJob_inv hs (by simpa [permittedIn] using hp) h
    | dec => exact startJob_inv hs (by simpa [permittedIn] using hp) h
    | data b => exact transformByte_inv hs (by simpa [permittedIn] using hp) hready h
    | endJob => cases h; exact clearRegisters_inv hs
    | rst => cases h; exact clearRegisters_inv hs

theorem takeWord_inv {w : CommandWord} (hs : s.Inv) (hready : s.cmdReady = true) (h : takeWord w s = .next t) :
    t.Inv := by
  rcases takeWord_next h with ⟨_, _, rfl⟩ | ⟨_, _, hexec⟩
  · split
    · exact hs
    · exact raiseFault_inv hs (by decide) (.inr (.inl rfl))
  · exact exec_inv hs hready hexec

end

/-- Settles O49: holding the state, a pin event and a transferred word each keep the invariants. -/
theorem stepKeepsInvariants : Obligations.StepKeepsInvariants := by
  intro s t hs h
  rcases step_next h with ⟨rfl, _⟩ | ⟨e, rest, _, rfl⟩ | ⟨w, rest, ⟨_, hready⟩, hword⟩
  · exact hs
  · exact applyPin_inv (inv_withInput hs rest) e
  · exact takeWord_inv (inv_withInput hs rest) hready hword

/-! The reset values (R33). -/

/-- The reset values of `KLEN`, `SHIFT` and `SEED`, and no others, fail validation. -/
theorem validate_reset_parameters {s : State} (hklen : s.klen = 0) (hovf : s.keyovf = false) (hshift : s.shift = 0x00)
    (hseed : s.seed = 0x00) (htap : s.tapbad = false) : validate [] s = 0x01 ||| 0x08 ||| 0x10 := by
  simp [validate, flagIf, hklen, hovf, hshift, hseed, htap, eKeyEmpty, eShift, eSeed]

/-- Settles O1: `State.reset` and the reset pin leave the same registers, the key among them empty, so that `ENC` meets
the three failing checks. -/
theorem resetRegisterValues : Obligations.ResetRegisterValues := by
  intro t ht
  have hreset : t = { State.resetWith t.config with outReady := t.outReady, input := t.input } := by
    rcases ht with rfl | ⟨s, rfl⟩ <;> rfl
  generalize t.config = c, t.outReady = ready, t.input = input at hreset
  subst hreset
  refine ⟨rfl, rfl, rfl, rfl, rfl, rfl, rfl, rfl, rfl, rfl, rfl, rfl, rfl, ?_⟩
  rw [exec_permitted rfl, startJob_of_readKey (chars := []) rfl, validate_reset_parameters rfl rfl rfl rfl rfl]
  rfl

/-! What a step may change. -/

/-- From `RUN` to `RUN` a command is a `DATA` that transforms its byte. -/
theorem exec_run_to_run {i : Instr} {s t : State} (h : exec i s = .next t) (hs : s.st = .run) (ht : t.st = .run) :
    ∃ b, i = .data b ∧ transformByte b s = .next t := by
  rcases exec_next h with ⟨hfault, _⟩ | ⟨_, _, rfl⟩ | hp
  · simp [hs] at hfault
  · simp at ht
  · rw [exec_permitted hp] at h
    cases i with
    | data b => exact ⟨b, rfl, h⟩
    | endJob => cases h; simp at ht
    | rst => cases h; simp at ht
    | _ => simp [permittedIn, hs] at hp

/-- From `RUN` to `RUN` a transferred word is a `DATA` that transforms its byte. -/
theorem takeWord_run_to_run {w : CommandWord} {s t : State} (h : takeWord w s = .next t) (hs : s.st = .run)
    (ht : t.st = .run) : ∃ b, transformByte b s = .next t := by
  rcases takeWord_next h with ⟨_, _, rfl⟩ | ⟨_, _, hexec⟩
  · simp [hs] at ht
  · obtain ⟨b, -, hb⟩ := exec_run_to_run hexec hs ht
    exact ⟨b, hb⟩

/-- Settles O51: from `RUN` to `RUN` a step takes at most a `DATA` or a pin event other than the reset pin, and neither
writes a parameter. -/
theorem parametersFrozenWhileRunning : Obligations.ParametersFrozenWhileRunning := by
  intro s t h hs ht
  rcases step_next h with ⟨rfl, _⟩ | ⟨e, rest, _, rfl⟩ | ⟨w, rest, _, hword⟩
  · exact ⟨rfl, rfl, rfl, rfl, rfl, rfl, rfl, rfl⟩
  · have he : e ≠ .rst := by
      rintro rfl
      cases ht
    rw [applyPin_of_ne_rst he]
    exact ⟨rfl, rfl, rfl, rfl, rfl, rfl, rfl, rfl⟩
  · obtain ⟨b, hb⟩ := takeWord_run_to_run hword hs ht
    obtain ⟨c, -, rfl⟩ := transformByte_next hb
    exact ⟨rfl, rfl, rfl, rfl, rfl, rfl, rfl, rfl⟩

/-- The sticky flags set before are set after (10_state.md R21, R23). -/
def FlagsKept (s t : State) : Prop :=
  (s.tapbad = true → t.tapbad = true) ∧ (s.keyovf = true → t.keyovf = true)

theorem flagsKept_of_eq {s t : State} (htap : t.tapbad = s.tapbad) (hovf : t.keyovf = s.keyovf) : FlagsKept s t :=
  ⟨htap.trans, hovf.trans⟩

/-- A flag that is cleared is not kept. -/
theorem not_flagsKept {s t : State}
    (h : (s.tapbad = true ∧ t.tapbad = false) ∨ (s.keyovf = true ∧ t.keyovf = false)) : ¬ FlagsKept s t := by
  rintro ⟨htap, hovf⟩
  rcases h with ⟨hset, hclear⟩ | ⟨hset, hclear⟩
  · simp [htap hset] at hclear
  · simp [hovf hset] at hclear

/-- A command other than an `END` in `RUN` or an `RST` keeps the sticky flags. -/
theorem exec_flagsKept {i : Instr} {s t : State} (h : exec i s = .next t) :
    ((i = .endJob ∧ s.st = .run) ∨ i = .rst) ∨ FlagsKept s t := by
  rcases exec_next h with ⟨_, _, rfl⟩ | ⟨_, _, rfl⟩ | hp
  · exact .inr (flagsKept_of_eq rfl rfl)
  · exact .inr (flagsKept_of_eq rfl rfl)
  · rw [exec_permitted hp] at h
    cases i with
    | keypush c =>
      rcases pushKey_next h with ⟨_, rfl⟩ | ⟨_, rfl⟩
      · exact .inr (flagsKept_of_eq rfl rfl)
      · exact .inr ⟨id, fun _ => rfl⟩
    | setshift v => cases h; exact .inr (flagsKept_of_eq rfl rfl)
    | setseed v => cases h; exact .inr (flagsKept_of_eq rfl rfl)
    | tapadd p => cases h; exact .inr ⟨fun hset => by simp [addTap_tapbad, hset], by simp⟩
    | enc => obtain ⟨_, _, ⟨_, rfl⟩ | ⟨_, rfl⟩⟩ := startJob_next h <;> exact .inr (flagsKept_of_eq rfl rfl)
    | dec => obtain ⟨_, _, ⟨_, rfl⟩ | ⟨_, rfl⟩⟩ := startJob_next h <;> exact .inr (flagsKept_of_eq rfl rfl)
    | data b => obtain ⟨_, _, rfl⟩ := transformByte_next h; exact .inr (flagsKept_of_eq rfl rfl)
    | endJob => exact .inl (.inl ⟨rfl, by simpa [permittedIn] using hp⟩)
    | rst => exact .inl (.inr rfl)

/-- Settles O54: a step that takes neither the reset pin nor one of the two clearing commands keeps both flags. -/
theorem stickyFlagsStay : Obligations.StickyFlagsStay := by
  intro s t h hcleared
  have hnot : ¬ FlagsKept s t := not_flagsKept hcleared
  rcases step_next h with ⟨rfl, _⟩ | ⟨e, rest, hpin, rfl⟩ | ⟨w, rest, htakes, hword⟩
  · exact absurd (flagsKept_of_eq rfl rfl) hnot
  · by_cases he : e = .rst
    · subst he
      exact .inl hpin
    · rw [applyPin_of_ne_rst he] at hnot
      exact absurd (flagsKept_of_eq rfl rfl) hnot
  · rcases takeWord_next hword with ⟨_, _, rfl⟩ | ⟨i, hi, hexec⟩
    · refine absurd (flagsKept_of_eq ?_ ?_) hnot <;> split <;> rfl
    · have hinput : t.input = rest := takeWord_input hword
      rcases exec_flagsKept hexec with hclears | hkept
      · exact .inr ⟨w, i, hinput ▸ htakes, hi, hclears⟩
      · exact absurd hkept hnot

/-- A `DATA` in `RUN` emits one byte and the job goes on (10_state.md R26). -/
theorem exec_data_run {b : Byte} {s t : State} (hs : s.st = .run) (h : exec (.data b) s = .next t) :
    t.st = .run ∧ ∃ y, t.out = s.out ++ [y] := by
  rw [exec_permitted (by simp [permittedIn, hs])] at h
  obtain ⟨c, -, rfl⟩ := transformByte_next h
  exact ⟨hs, _, rfl⟩

/-- Every command but a `DATA` in `RUN` leaves `OUT`. -/
theorem exec_out {i : Instr} {s t : State} (h : exec i s = .next t) (hi : ∀ b, i = .data b → s.st ≠ .run) :
    t.out = s.out := by
  rcases exec_next h with ⟨_, _, rfl⟩ | ⟨_, _, rfl⟩ | hp
  · rfl
  · rfl
  · rw [exec_permitted hp] at h
    cases i with
    | keypush c => rcases pushKey_next h with ⟨_, rfl⟩ | ⟨_, rfl⟩ <;> rfl
    | setshift v => cases h; rfl
    | setseed v => cases h; rfl
    | tapadd p => cases h; exact addTap_out p s
    | enc => obtain ⟨_, _, ⟨_, rfl⟩ | ⟨_, rfl⟩⟩ := startJob_next h <;> rfl
    | dec => obtain ⟨_, _, ⟨_, rfl⟩ | ⟨_, rfl⟩⟩ := startJob_next h <;> rfl
    | data b => exact absurd (by simpa [permittedIn] using hp) (hi b rfl)
    | endJob => cases h; rfl
    | rst => cases h; rfl

/-- A word that is no `DATA` in `RUN` leaves `OUT`. -/
theorem takeWord_out {w : CommandWord} {s t : State} (h : takeWord w s = .next t)
    (hw : ∀ b, decode w = .ok (.data b) → s.st ≠ .run) : t.out = s.out := by
  rcases takeWord_next h with ⟨_, _, rfl⟩ | ⟨i, hi, hexec⟩
  · split <;> rfl
  · exact exec_out hexec fun b hb => hw b (hb ▸ hi)

/-- Settles O55: each of the three cases names the event the step takes. -/
theorem outIsAppendOnly : Obligations.OutIsAppendOnly := by
  intro s t h
  refine ⟨fun w rest b htakes hw hrun => ?_, fun rest hpin => ?_, fun hdata hpins => ?_⟩
  · rw [step_takesWord htakes, takeWord_of_decode hw] at h
    exact exec_data_run (s := { s with input := rest }) hrun h
  · rw [step_takesPin hpin] at h
    cases h
    rfl
  · rcases step_next h with ⟨rfl, _⟩ | ⟨e, rest, hpin, rfl⟩ | ⟨w, rest, htakes, hword⟩
    · rfl
    · have he : e ≠ .rst := by
        rintro rfl
        exact hpins rest hpin
      rw [applyPin_of_ne_rst he]
    · exact takeWord_out (s := { s with input := rest }) hword fun b hw => hdata w rest b htakes hw

/-- In `FAULT` a word other than `RST` has no effect (60_exceptions.md R129). -/
theorem takeWord_fault {w : CommandWord} {s t : State} (h : takeWord w s = .next t) (hs : s.st = .fault)
    (hw : decode w ≠ .ok .rst) : t = s := by
  rcases takeWord_next h with ⟨_, _, rfl⟩ | ⟨i, hi, hexec⟩
  · rw [if_pos hs]
  · have hne : i ≠ .rst := by
      rintro rfl
      exact hw hi
    rw [exec_fault hs hne] at hexec
    cases hexec
    rfl

/-- Settles O20: the two events that leave `FAULT` reset the registers, and what else a step can do writes the host's
part of the state alone. -/
theorem faultStateChangesNothing : Obligations.FaultStateChangesNothing := by
  intro s t hs h
  refine ⟨fun w rest htakes hw => ?_, fun rest hpin => ?_, fun hwords hpins => ?_⟩
  · rw [step_takesWord htakes, takeWord_of_decode hw] at h
    cases h
    exact clearRegisters_eq_resetWith _
  · rw [step_takesPin hpin] at h
    cases h
    exact pinReset_eq_resetWith _
  · rcases step_next h with ⟨rfl, _⟩ | ⟨e, rest, hpin, rfl⟩ | ⟨w, rest, htakes, hword⟩
    · rfl
    · have he : e ≠ .rst := by
        rintro rfl
        exact hpins rest hpin
      rw [applyPin_of_ne_rst he]
    · have hsame := takeWord_fault hword hs (hwords w rest htakes)
      rw [hsame]

end Sys2Proof.Proofs

/-! The key space and the three ports (20_memory.md). -/

namespace Sys2Proof.Proofs

open Sys2Proof.Machine

/-! The key space (R34). -/

/-- How the command `i` writes the key space: `END` in `RUN` and `RST` leave no cell listed, a `KEYPUSH` in `IDLE`
writes the cell at `KLEN` (20_memory.md R34, log 5). -/
def WritesKey (i : Instr) (s t : State) : Prop :=
  (((i = .endJob ∧ s.st = .run) ∨ i = .rst) ∧ t.key = []) ∨
  ∃ c, i = .keypush c ∧ s.st = .idle ∧ t.key = Memory.write s.key s.klen c

/-- What a command can do to the key space. -/
theorem exec_key {i : Instr} {s t : State} (h : exec i s = .next t) : t.key = s.key ∨ WritesKey i s t := by
  rcases exec_next h with ⟨_, _, rfl⟩ | ⟨_, _, rfl⟩ | hp
  · exact .inl rfl
  · exact .inl rfl
  · rw [exec_permitted hp] at h
    cases i with
    | keypush c =>
      rcases pushKey_next h with ⟨_, rfl⟩ | ⟨_, rfl⟩
      · exact .inr (.inr ⟨c, rfl, by simpa [permittedIn] using hp, rfl⟩)
      · exact .inl rfl
    | setshift v => cases h; exact .inl rfl
    | setseed v => cases h; exact .inl rfl
    | tapadd p => cases h; exact .inl (addTap_key p s)
    | enc => obtain ⟨_, _, ⟨_, rfl⟩ | ⟨_, rfl⟩⟩ := startJob_next h <;> exact .inl rfl
    | dec => obtain ⟨_, _, ⟨_, rfl⟩ | ⟨_, rfl⟩⟩ := startJob_next h <;> exact .inl rfl
    | data b => obtain ⟨_, _, rfl⟩ := transformByte_next h; exact .inl rfl
    | endJob => cases h; exact .inr (.inl ⟨.inl ⟨rfl, by simpa [permittedIn] using hp⟩, rfl⟩)
    | rst => cases h; exact .inr (.inl ⟨.inr rfl, rfl⟩)

/-- What a step can do to the key space: keep it, reset it by the pin, or transfer a command that writes it. -/
theorem step_key {s t : State} (h : step s = .next t) :
    t.key = s.key ∨ (s.takesPin .rst t.input ∧ t.key = []) ∨
    ∃ w i, s.takesWord w t.input ∧ decode w = .ok i ∧ WritesKey i s t := by
  rcases step_next h with ⟨rfl, _⟩ | ⟨e, rest, hpin, rfl⟩ | ⟨w, rest, htakes, hword⟩
  · exact .inl rfl
  · by_cases he : e = .rst
    · subst he
      exact .inr (.inl ⟨hpin, rfl⟩)
    · rw [applyPin_of_ne_rst he]
      exact .inl rfl
  · rcases takeWord_next hword with ⟨_, _, rfl⟩ | ⟨i, hi, hexec⟩
    · left
      split <;> rfl
    · have hinput : t.input = rest := takeWord_input hword
      rcases exec_key hexec with hkept | hwrites
      · exact .inl hkept
      · exact .inr (.inr ⟨w, i, hinput ▸ htakes, hi, hwrites⟩)

/-- A command that writes the key space keeps its canonical form. -/
theorem WritesKey.wf {i : Instr} {s t : State} (h : WritesKey i s t) (hs : Memory.wf s.key) : Memory.wf t.key := by
  rcases h with ⟨_, hempty⟩ | ⟨c, _, _, hwrite⟩
  · rw [hempty]
    exact List.Pairwise.nil
  · rw [hwrite]
    exact Memory.write_wf s.klen c hs

/-- A write of one cell leaves what every other cell reads. -/
theorem memRead_of_write_ne {s t : State} {n a : Nat} {c : Byte} (hkey : t.key = Memory.write s.key n c)
    (hconfig : t.config = s.config) (ha : a ≠ n) : memRead t a = memRead s a := by
  simp only [memRead, hkey, hconfig, Memory.read_write_ne _ _ ha]

/-- Settles O53: what a step can do to the key space keeps its form, and a push writes the cell at `KLEN` alone. -/
theorem keySpaceChangesOnlyByItsCommands : Obligations.KeySpaceChangesOnlyByItsCommands := by
  refine ⟨fun s t h hs => ?_, fun s t a h hread => ?_⟩
  · rcases step_key h with hkept | ⟨_, hempty⟩ | ⟨w, i, _, _, hwrites⟩
    · rwa [hkept]
    · rw [hempty]
      exact List.Pairwise.nil
    · exact hwrites.wf hs
  · have hconfig : t.config = s.config := instanceParametersFixed s t h
    rcases step_key h with hkept | ⟨hpin, _⟩ | ⟨w, i, htakes, hi, ⟨hclears, _⟩ | ⟨c, hpush, hidle, hwrite⟩⟩
    · exact absurd (memRead_congr hkept hconfig a) hread
    · exact .inl hpin
    · exact .inr ⟨w, i, htakes, hi, hclears.imp_right .inl⟩
    · have ha : a = s.klen := by
        by_contra hne
        exact hread (memRead_of_write_ne hwrite hconfig hne)
      exact .inr ⟨w, i, htakes, hi, .inr (.inr ⟨⟨c, hpush⟩, hidle, ha⟩)⟩

/-! The command port (R36). -/

/-- Every command is well formed, since its operand is the 8-bit field itself (30_encoding.md R52). -/
theorem instr_wellFormed (i : Instr) : i.wellFormed = true := by
  cases i <;> rfl

/-- Settles O9: the word is transferred, and a word that decodes has its command's meaning. -/
theorem stepRunsDecodedCommand : Obligations.StepRunsDecodedCommand := by
  intro s w rest hinput hready
  have hstep : step s = takeWord w { s with input := rest } := step_takesWord ⟨hinput, hready⟩
  exact ⟨hstep, fun i hi => ⟨instr_wellFormed i, hstep.trans (takeWord_of_decode hi _)⟩⟩

/-! The status port (R38). -/

/-- The encoding of `ST` tells its three values apart (10_state.md R15). -/
theorem bits_injective : Function.Injective EngineState.bits := by
  intro a b h
  match a, b, h with
  | .idle, .idle, _ => rfl
  | .run, .run, _ => rfl
  | .fault, .fault, _ => rfl

/-- Settles O56: 0, 1 and 2 are the bits of the three values of `ST`, each of that value alone. -/
theorem statusPortCarriesState : Obligations.StatusPortCarriesState := fun s =>
  have hst (st : EngineState) : s.statusPort.st = st.bits ↔ s.st = st := bits_injective.eq_iff
  ⟨rfl, beq_iff_eq, hst .idle, hst .run, hst .fault⟩

/-! The output port (R37). -/

/-- A `DATA` in `RUN` emits one byte: it is taken with all before it while `out_ready` is high, and held behind them while
it is low. -/
theorem exec_data_emits {b : Byte} {s t : State} (hs : s.st = .run) (h : exec (.data b) s = .next t) :
    ∃ y, t.out = s.out ++ [y] ∧ t.held = if s.outReady then [] else s.held ++ [y] := by
  rw [exec_permitted (by simp [permittedIn, hs])] at h
  obtain ⟨c, -, rfl⟩ := transformByte_next h
  exact ⟨_, rfl, rfl⟩

/-- Every command but a `DATA` in `RUN` leaves the bytes held, `END` and `RST` among them (log 4). -/
theorem exec_held {i : Instr} {s t : State} (h : exec i s = .next t) (hi : ∀ b, i = .data b → s.st ≠ .run) :
    t.held = s.held := by
  rcases exec_next h with ⟨_, _, rfl⟩ | ⟨_, _, rfl⟩ | hp
  · rfl
  · rfl
  · rw [exec_permitted hp] at h
    cases i with
    | keypush c => rcases pushKey_next h with ⟨_, rfl⟩ | ⟨_, rfl⟩ <;> rfl
    | setshift v => cases h; rfl
    | setseed v => cases h; rfl
    | tapadd p => cases h; exact addTap_held p s
    | enc => obtain ⟨_, _, ⟨_, rfl⟩ | ⟨_, rfl⟩⟩ := startJob_next h <;> rfl
    | dec => obtain ⟨_, _, ⟨_, rfl⟩ | ⟨_, rfl⟩⟩ := startJob_next h <;> rfl
    | data b => exact absurd (by simpa [permittedIn] using hp) (hi b rfl)
    | endJob => cases h; rfl
    | rst => cases h; rfl

/-- Settles O57: the two clauses on commands, and the three pin events where each stands first. -/
theorem outputPortTransfers : Obligations.OutputPortTransfers := by
  refine ⟨fun b s t hs h => ?_, fun i s t h hother => ?_, fun s rest hin => step_takesPin (.inl hin),
    fun s rest hin => step_takesPin (.inl hin), fun s rest hin => step_takesPin (.inl hin)⟩
  · obtain ⟨y, hout, hheld⟩ := exec_data_emits hs h
    exact ⟨y, hout, fun hready => by simp [hheld, hready], fun hready => by simp [hheld, hready]⟩
  · rcases hother with hrun | hdata
    · exact exec_held h fun _ _ => hrun
    · exact exec_held h fun b hb => absurd hb (hdata b)

end Sys2Proof.Proofs

/-! The encoding of the commands (30_encoding.md). -/

namespace Sys2Proof.Proofs

open Sys2Proof.Machine Sys2Proof.Laws

/-! The encoder (R51). -/

@[simp] theorem opField_encode (i : Instr) : opField (encode i) = i.opcode := opField_append _ _

@[simp] theorem argField_encode (i : Instr) : argField (encode i) = i.operand := argField_append _ _

/-- A word is a command's word exactly when its two fields are the command's (R51). -/
theorem encode_eq_iff (i : Instr) (w : CommandWord) :
    encode i = w ↔ opField w = i.opcode ∧ argField w = i.operand := by
  constructor
  · rintro rfl
    exact ⟨opField_encode i, argField_encode i⟩
  · rintro ⟨hop, harg⟩
    rw [word_eq_fields w, hop, harg]
    rfl

/-! The rows of the opcode map (R53). -/

/-- A row looks for the opcode of the command it builds; one with an operand gives the command the `arg` field and does
not test it, one without an operand tests it for zero. -/
theorem opcodeMap_row {r : OpcodeRow} (hr : r ∈ opcodeMap) (arg : Byte) :
    r.pattern = ((r.build arg).opcode ++ 0x00#8 : BitVec (8 + 8)) ∧
    (r.mask = 0xFF00 ∧ (r.build arg).operand = arg ∨ r.mask = 0xFFFF ∧ (r.build arg).operand = 0x00) := by
  simp only [opcodeMap, List.mem_cons, List.not_mem_nil, or_false] at hr
  rcases hr with rfl | rfl | rfl | rfl | rfl | rfl | rfl | rfl | rfl <;> simp [Instr.opcode, Instr.operand]

/-- A row accepts exactly the words of the commands it builds: mask and match ignore no bit (R53, R54). -/
theorem accepts_iff_encode_build {r : OpcodeRow} (hr : r ∈ opcodeMap) (w : CommandWord) :
    r.accepts w = true ↔ encode (r.build (argField w)) = w := by
  obtain ⟨hpattern, ⟨hmask, harg⟩ | ⟨hmask, harg⟩⟩ := opcodeMap_row hr (argField w)
  · rw [OpcodeRow.accepts, beq_iff_eq, hmask, hpattern, opMask_iff, encode_eq_iff, harg, and_iff_left rfl]
  · rw [OpcodeRow.accepts, beq_iff_eq, hmask, hpattern, fullMask_iff, encode_eq_iff, harg]

/-- The nine rows build commands of nine different opcodes. -/
theorem opcodeMap_opcodes_nodup (arg : Byte) : (opcodeMap.map fun r => (r.build arg).opcode).Nodup := by
  change [0x01#8, 0x02, 0x03, 0x04, 0x08, 0x09, 0x0A, 0x0B, 0x0F].Nodup
  decide

/-- The rows are pairwise disjoint: each accepts words of its own opcode alone (R53). -/
theorem accepting_row_unique {r r' : OpcodeRow} {w : CommandWord} (hr : r ∈ opcodeMap) (hr' : r' ∈ opcodeMap)
    (h : r.accepts w = true) (h' : r'.accepts w = true) : r = r' := by
  rw [accepts_iff_encode_build hr, encode_eq_iff] at h
  rw [accepts_iff_encode_build hr', encode_eq_iff] at h'
  obtain ⟨hop, -⟩ := h
  obtain ⟨hop', -⟩ := h'
  exact List.inj_on_of_nodup_map (opcodeMap_opcodes_nodup (argField w)) hr hr' (hop.symm.trans hop')

/-- At most one row accepts a word. -/
theorem accepting_rows_length_le_one (w : CommandWord) : (opcodeMap.filter fun r => r.accepts w).length ≤ 1 := by
  have hnodup : (opcodeMap.filter fun r => r.accepts w).Nodup := ((opcodeMap_opcodes_nodup 0x00).of_map _).filter _
  have hmem (r : OpcodeRow) (h : r ∈ opcodeMap.filter fun r => r.accepts w) : r ∈ opcodeMap ∧ r.accepts w = true :=
    List.mem_filter.mp h
  generalize opcodeMap.filter (fun r => r.accepts w) = rows at hnodup hmem
  match rows with
  | [] | [_] => simp
  | r :: r' :: rest =>
    obtain ⟨hr, haccepts⟩ := hmem r (by simp)
    obtain ⟨hr', haccepts'⟩ := hmem r' (by simp)
    obtain rfl := accepting_row_unique hr hr' haccepts haccepts'
    simp at hnodup

/-! The decoder (R55). -/

/-- Every command's word is accepted by the command's row. -/
theorem encodeMatchesRow (i : Instr) : EncodeMatchesRow.Statement i := by
  cases i with
  | keypush c => exact EncodeMatchesRow.keypush c
  | setshift v => exact EncodeMatchesRow.setshift v
  | setseed v => exact EncodeMatchesRow.setseed v
  | tapadd p => exact EncodeMatchesRow.tapadd p
  | enc => exact EncodeMatchesRow.enc
  | dec => exact EncodeMatchesRow.dec
  | data b => exact EncodeMatchesRow.data b
  | endJob => exact EncodeMatchesRow.endJob
  | rst => exact EncodeMatchesRow.rst

/-- A legal word is what a row that accepts it builds. -/
theorem decode_eq_ok_iff_row (w : CommandWord) (i : Instr) :
    decode w = .ok i ↔ ∃ r ∈ opcodeMap, r.accepts w = true ∧ r.build (argField w) = i := by
  unfold decode
  split
  case h_1 r hfind =>
    have hr := List.mem_of_find?_eq_some hfind
    have haccepts : r.accepts w = true := List.find?_some (p := fun r : OpcodeRow => r.accepts w) hfind
    constructor
    · intro h
      exact ⟨r, hr, haccepts, Except.ok.inj h⟩
    · rintro ⟨r', hr', haccepts', rfl⟩
      rw [accepting_row_unique hr hr' haccepts haccepts']
  case h_2 hfind =>
    simp only [reduceCtorEq, false_iff]
    rintro ⟨r, hr, haccepts, -⟩
    exact List.find?_eq_none.mp hfind r hr haccepts

/-- Decoding and encoding are inverse: a word decodes to a command exactly when it is that command's word (R53 to
R55). -/
theorem decode_eq_ok_iff (w : CommandWord) (i : Instr) : decode w = .ok i ↔ encode i = w := by
  rw [decode_eq_ok_iff_row]
  constructor
  · rintro ⟨r, hr, haccepts, rfl⟩
    exact (accepts_iff_encode_build hr w).mp haccepts
  · rintro rfl
    exact (encodeMatchesRow i).2.2

theorem decode_encode (i : Instr) : decode (encode i) = .ok i := (decode_eq_ok_iff _ i).mpr rfl

/-- Settles O3: the row of a command accepts the command's word and builds the command from it. -/
theorem decodeInvertsEncode : Obligations.DecodeInvertsEncode := fun i _ => decode_encode i

/-- Settles O4: a row accepts only the words of the commands it builds. -/
theorem encodeInvertsDecode : Obligations.EncodeInvertsDecode := fun w i h =>
  ⟨instr_wellFormed i, (decode_eq_ok_iff w i).mp h⟩

/-! The opcode map by match and mask (R53). -/

/-- A word decodes to a command when its masked word is the row's match and its low byte the operand. -/
theorem decode_eq_ok_iff_opMask (w : CommandWord) {i : Instr} {op : Byte} (hop : i.opcode = op) :
    decode w = .ok i ↔ w &&& 0xFF00 = (op ++ 0x00#8 : BitVec (8 + 8)) ∧ i.operand = w.setWidth 8 := by
  rw [decode_eq_ok_iff, encode_eq_iff, hop, opMask_iff, argField_eq_setWidth, eq_comm (a := i.operand)]

/-- A word decodes to a command without an operand when it is the row's match whole. -/
theorem decode_eq_ok_iff_fullMask (w : CommandWord) {i : Instr} (hi : i.operand = 0x00) :
    decode w = .ok i ↔ w &&& 0xFFFF = (i.opcode ++ 0x00#8 : BitVec (8 + 8)) := by
  rw [decode_eq_ok_iff, encode_eq_iff, fullMask_iff, hi]

/-- A job that starts has the mode of the command that starts it (44_pipeline_commands.md R101, R102). -/
theorem exec_startCommand_mode {m : Mode} {s t : State} (h : exec (startCommand m) s = .next t) (hs : s.st = .idle)
    (ht : t.st = .run) : t.mode = m := by
  rw [exec_startCommand m hs] at h
  obtain ⟨_, _, ⟨_, rfl⟩ | ⟨_, rfl⟩⟩ := startJob_next h
  · rfl
  · cases ht

/-- `op[0]` of `ENC` and `DEC` is the bit of the mode each starts (R53). -/
theorem mode_bit_eq_opcode_bit (m : Mode) : m.bit = (encode (startCommand m)).extractLsb' 8 1 := by
  cases m <;> rfl

/-- Settles O5: the nine rows by mask and match, their disjointness, and the bit of `MODE`. -/
theorem opcodeMapMatchAndMask : Obligations.OpcodeMapMatchAndMask := by
  refine ⟨fun w x => decode_eq_ok_iff_opMask w (i := .keypush x) (op := 0x01) rfl,
    fun w x => decode_eq_ok_iff_opMask w (i := .setshift x) (op := 0x02) rfl,
    fun w x => decode_eq_ok_iff_opMask w (i := .setseed x) (op := 0x03) rfl,
    fun w x => decode_eq_ok_iff_opMask w (i := .tapadd x) (op := 0x04) rfl,
    fun w => decode_eq_ok_iff_fullMask w (i := .enc) rfl,
    fun w => decode_eq_ok_iff_fullMask w (i := .dec) rfl,
    fun w x => decode_eq_ok_iff_opMask w (i := .data x) (op := 0x0A) rfl,
    fun w => decode_eq_ok_iff_fullMask w (i := .endJob) rfl,
    fun w => decode_eq_ok_iff_fullMask w (i := .rst) rfl,
    accepting_rows_length_le_one, fun m s t h ht hs => ?_⟩
  rw [exec_startCommand_mode h hs ht, mode_bit_eq_opcode_bit]

/-! The illegal words (R56). -/

/-- The legal words by their fields: five opcodes with every operand, four with operand zero (R53, R54). -/
theorem exists_encode_eq_iff (w : CommandWord) :
    (∃ i, encode i = w) ↔ opField w ∈ [0x01#8, 0x02#8, 0x03#8, 0x04#8, 0x0A#8] ∨
      opField w ∈ [0x08#8, 0x09#8, 0x0B#8, 0x0F#8] ∧ argField w = 0x00#8 := by
  constructor
  · rintro ⟨i, rfl⟩
    rw [opField_encode, argField_encode]
    cases i <;> simp [Instr.opcode, Instr.operand]
  · simp only [encode_eq_iff, List.mem_cons, List.not_mem_nil, or_false]
    rintro ((h | h | h | h | h) | ⟨h | h | h | h, harg⟩)
    · exact ⟨.keypush (argField w), h, rfl⟩
    · exact ⟨.setshift (argField w), h, rfl⟩
    · exact ⟨.setseed (argField w), h, rfl⟩
    · exact ⟨.tapadd (argField w), h, rfl⟩
    · exact ⟨.data (argField w), h, rfl⟩
    · exact ⟨.enc, h, harg⟩
    · exact ⟨.dec, h, harg⟩
    · exact ⟨.endJob, h, harg⟩
    · exact ⟨.rst, h, harg⟩

/-- A word is illegal when it is no command's word (R55). -/
theorem exists_decode_error_iff (w : CommandWord) : (∃ e, decode w = .error e) ↔ ¬ ∃ i, encode i = w := by
  simp only [← decode_eq_ok_iff]
  cases decode w <;> simp

/-- Executing an illegal word: `E_ILLEGAL` outside `FAULT`, discarded in it (60_exceptions.md R124, R129). -/
theorem takeWord_of_decode_error {w : CommandWord} {e : IllegalWord} (h : decode w = .error e) (s : State) :
    takeWord w s = .next (if s.st = .fault then s else raiseFault eIllegal s) := by
  simp only [takeWord, h, takeIllegal_eq]

/-- Settles O6: the illegal words are the complement of the legal ones, and each is taken as `takeIllegal` says. -/
theorem illegalWords : Obligations.IllegalWords := by
  refine ⟨fun w => ?_, fun s w e h => ⟨fun hs => ?_, fun hs => ?_⟩⟩
  · rw [exists_decode_error_iff, exists_encode_eq_iff, ← argField_eq_setWidth]
    change _ ↔ (opField w).toNat ∈ _ ∨ _ ≤ (opField w).toNat ∨ (opField w).toNat ∈ _ ∧ _
    simp only [List.mem_cons, List.not_mem_nil, or_false, ← BitVec.toNat_inj, BitVec.toNat_ofNat, Nat.reducePow,
      Nat.reduceMod, ne_eq]
    omega
  · rw [takeWord_of_decode_error h, if_neg hs]
    rfl
  · rw [takeWord_of_decode_error h, if_pos hs]

/-! The assembler's pseudo-instructions (R60 to R62). -/

/-- A field joined by `{op, arg}` is a field joined by or, where the number fits the operand. -/
theorem append_ofNat_eq_or (op : Byte) {n : Nat} (h : n ≤ 255) :
    (op ++ BitVec.ofNat 8 n : BitVec (8 + 8)) = (op ++ 0x00#8 : BitVec (8 + 8)) ||| BitVec.ofNat 16 n := by
  apply BitVec.eq_of_getLsbD_eq
  intro j hj
  simp only [BitVec.getLsbD_or, BitVec.getLsbD_append, BitVec.getLsbD_ofNat]
  by_cases hlow : j < 8
  · simp [hlow, hj]
  · have hhigh : n.testBit j = false :=
      Nat.testBit_lt_two_pow (lt_of_lt_of_le (by omega : n < 2 ^ 8) (Nat.pow_le_pow_right (by omega) (by omega)))
    simp [hlow, hhigh]

/-- A list of numbers that fit, each the operand of one command, encodes to one word per number, in order. -/
theorem map_encode_operands (build : Byte → Instr) {op : Byte} (hbuild : ∀ x, encode (build x) = op ++ x)
    {ns : List Nat} (hfits : ∀ n ∈ ns, operandFits n = true) :
    (ns.map fun n => build (BitVec.ofNat 8 n)).map encode =
      ns.map fun n => (op ++ 0x00#8 : BitVec (8 + 8)) ||| BitVec.ofNat 16 n := by
  rw [List.map_map]
  refine List.map_congr_left fun n hn => ?_
  have hle : n ≤ 255 := by simpa [operandFits] using hfits n hn
  exact (hbuild _).trans (append_ofNat_eq_or op hle)

/-- A printable character is an operand that fits. -/
theorem operandFits_of_printableCode {n : Nat} (h : printableCode n = true) : operandFits n = true := by
  simp only [printableCode, operandFits, Bool.and_eq_true, decide_eq_true_eq] at h ⊢
  omega

/-- A source command the assembler accepts gives the words of what it expands to (R59). -/
theorem assemble_of_wellFormed {c : Source} (h : c.wellFormed = true) : assemble c = some ((expand c).map encode) :=
  if_pos h

/-- Settles O8: each pseudo-instruction is one command per item; the examples are evaluated. -/
theorem pseudoInstructionsExpand : Obligations.PseudoInstructionsExpand := by
  refine ⟨fun codes h => ?_, fun positions h => ?_, fun values h => ?_, by decide, by decide, by decide⟩
  · have hfits : ∀ n ∈ codes, operandFits n = true := fun n hn =>
      operandFits_of_printableCode (List.all_eq_true.mp h n hn)
    exact (assemble_of_wellFormed (c := .key codes) h).trans
      (congrArg some (map_encode_operands .keypush (fun _ => rfl) hfits))
  · exact (assemble_of_wellFormed (c := .taps positions) h).trans
      (congrArg some (map_encode_operands .tapadd (fun _ => rfl) (List.all_eq_true.mp h)))
  · exact (assemble_of_wellFormed (c := .bytes values) h).trans
      (congrArg some (map_encode_operands .data (fun _ => rfl) (List.all_eq_true.mp h)))

/-- Settles O7: each legal word is the word of its command; the last three match no row. -/
theorem sampleWordsDecode : Obligations.SampleWordsDecode :=
  ⟨decode_encode (.keypush 0x41), decode_encode (.setshift 3), decode_encode (.setseed 0xB5), decode_encode (.tapadd 8),
    decode_encode .enc, decode_encode .dec, decode_encode (.data 255), decode_encode .endJob, decode_encode .rst,
    ⟨_, rfl⟩, ⟨_, rfl⟩, ⟨_, rfl⟩⟩

end Sys2Proof.Proofs

/-! The parameter commands (40_parameter_commands.md). -/

namespace Sys2Proof.Proofs

open Sys2Proof.Machine

/-! What the parameter commands share. -/

theorem exec_keypush_idle (c : Byte) {s : State} (hs : s.st = .idle) : exec (.keypush c) s = pushKey c s :=
  whenIdle_idle hs _

theorem exec_setshift_idle (v : Byte) {s : State} (hs : s.st = .idle) :
    exec (.setshift v) s = .next { s with shift := v } :=
  whenIdle_idle hs _

theorem exec_setseed_idle (v : Byte) {s : State} (hs : s.st = .idle) :
    exec (.setseed v) s = .next { s with seed := v } :=
  whenIdle_idle hs _

theorem exec_tapadd_idle (p : Byte) {s : State} (hs : s.st = .idle) : exec (.tapadd p) s = .next (addTap p s) :=
  whenIdle_idle hs _

/-- A command that `RUN` does not permit takes `E_PROTO` alone there (60_exceptions.md R123). -/
theorem exec_run_refused {i : Instr} {s : State} (hs : s.st = .run) (hi : permittedIn i .run = false) :
    exec i s = .next { s with st := .fault, err := 0x40 } :=
  exec_refused (by simp [hs]) (hs ▸ hi)

/-- A check that fails for the key as read makes the start of a job a fault that reports it (44_pipeline_commands.md
R100, R101, R102). -/
theorem exec_startCommand_reports {m : Mode} {s t : State} {j : Nat} (hs : s.st = .idle)
    (h : exec (startCommand m) s = .next t)
    (hflag : ∀ chars, readKey s = .ok chars → (validate chars s).getLsbD j = true) :
    t.st = .fault ∧ t.err.getLsbD j = true := by
  rw [exec_startCommand m hs] at h
  obtain ⟨chars, hkey, ⟨hzero, rfl⟩ | ⟨-, rfl⟩⟩ := startJob_next h
  · have hset := hflag chars hkey
    simp [hzero] at hset
  · exact ⟨rfl, hflag chars hkey⟩

/-- The bits of `TAPS` after a `TAPADD`: those set before, and the position when it is in range (R67). -/
theorem addTap_taps_getLsbD (p : Byte) (s : State) (j : Nat) :
    (addTap p s).taps.getLsbD j = true ↔ s.taps.getLsbD j = true ∨ (p.toNat ≤ 7 ∧ j = p.toNat) := by
  by_cases hp : p.toNat ≤ 7
  · rw [addTap_of_inRange p s (decide_eq_true hp), BitVec.getLsbD_or, Bool.or_eq_true, and_iff_right hp]
    by_cases hj : j < 8
    · rw [tapMask_getLsbD p hp j hj, eq_comm (a := j)]
    · have hmask : (tapMask p).getLsbD j = false := BitVec.getLsbD_of_ge _ _ (Nat.le_of_not_lt hj)
      have hne : j ≠ p.toNat := by omega
      simp [hmask, hne]
  · rw [addTap_of_outOfRange p s (decide_eq_false hp)]
    simp [hp]

/-- The key has lost no character and the tap set no position (R64, R67). -/
def ParametersGrow (s t : State) : Prop :=
  s.klen ≤ t.klen ∧ ∀ j, s.taps.getLsbD j = true → t.taps.getLsbD j = true

theorem parametersGrow_of_eq {s t : State} (hklen : t.klen = s.klen) (htaps : t.taps = s.taps) : ParametersGrow s t :=
  ⟨hklen.ge, fun _ hj => htaps ▸ hj⟩

/-- No command but `END` and `RST` shortens the key or removes a position. -/
theorem exec_parametersGrow {i : Instr} {s t : State} (h : exec i s = .next t) (hend : i ≠ .endJob)
    (hrst : i ≠ .rst) : ParametersGrow s t := by
  rcases exec_next h with ⟨_, _, rfl⟩ | ⟨_, _, rfl⟩ | hp
  · exact parametersGrow_of_eq rfl rfl
  · exact parametersGrow_of_eq rfl rfl
  · rw [exec_permitted hp] at h
    cases i with
    | keypush c =>
      rcases pushKey_next h with ⟨_, rfl⟩ | ⟨_, rfl⟩
      · exact ⟨Nat.le_succ s.klen, fun _ hj => hj⟩
      · exact parametersGrow_of_eq rfl rfl
    | setshift v => cases h; exact parametersGrow_of_eq rfl rfl
    | setseed v => cases h; exact parametersGrow_of_eq rfl rfl
    | tapadd p => cases h; exact ⟨(addTap_klen p s).ge, fun j hj => (addTap_taps_getLsbD p s j).mpr (.inl hj)⟩
    | enc => obtain ⟨_, _, ⟨_, rfl⟩ | ⟨_, rfl⟩⟩ := startJob_next h <;> exact parametersGrow_of_eq rfl rfl
    | dec => obtain ⟨_, _, ⟨_, rfl⟩ | ⟨_, rfl⟩⟩ := startJob_next h <;> exact parametersGrow_of_eq rfl rfl
    | data b => obtain ⟨_, _, rfl⟩ := transformByte_next h; exact parametersGrow_of_eq rfl rfl
    | endJob => exact absurd rfl hend
    | rst => exact absurd rfl hrst

/-! `KEYPUSH` (R64). -/

/-- No command but `END` and `RST` replaces a character of the key: a push writes past them. -/
theorem exec_memRead_of_lt_klen {i : Instr} {s t : State} {a : Nat} (h : exec i s = .next t) (hend : i ≠ .endJob)
    (hrst : i ≠ .rst) (ha : a < s.klen) : memRead t a = memRead s a := by
  obtain ⟨hconfig, -, -⟩ := exec_host h
  rcases exec_key h with hkept | ⟨⟨hi, _⟩ | hi, _⟩ | ⟨c, _, _, hwrite⟩
  · exact memRead_congr hkept hconfig a
  · exact absurd hi hend
  · exact absurd hi hrst
  · exact memRead_of_write_ne hwrite hconfig ha.ne

/-- Settles O12: a push with room is one write at `KLEN`, of which the other cells are the frame; the three checks of
the key are bits 0 to 2 of what validation answers. -/
theorem keypushAppendsCharacter : Obligations.KeypushAppendsCharacter := by
  refine ⟨fun c => decode_encode (.keypush c), fun c s hs hroom => ?_, fun c s hs hfull => ?_,
    fun c s hs => exec_run_refused hs rfl,
    fun i s t h hend hrst => ⟨(exec_parametersGrow h hend hrst).1, fun a => exec_memRead_of_lt_klen h hend hrst⟩,
    fun s t hs h => ⟨fun hempty => ?_, fun ⟨a, c, ha, hc, halpha⟩ => ?_, fun hovf => ?_⟩⟩
  · have hexec := (exec_keypush_idle c hs).trans (pushKey_room c hroom)
    have hread := memRead_write s (s.klen + 1) s.klen c hroom
    exact ⟨_, hexec, rfl, (hread s.klen).trans (if_pos rfl), fun a ha => (hread a).trans (if_neg ha)⟩
  · exact (exec_keypush_idle c hs).trans (pushKey_full c hfull)
  · refine exec_startCommand_reports (m := .forward) hs h fun chars _ => ?_
    obtain ⟨hbit, -⟩ := validate_bits chars s
    simp [hbit, hempty]
  · refine exec_startCommand_reports (m := .forward) hs h fun chars hkey => ?_
    obtain ⟨-, hbit, -⟩ := validate_bits chars s
    rw [hbit, readKey_any hkey]
    exact ⟨a, ha, c, hc, by simp [halpha]⟩
  · refine exec_startCommand_reports (m := .forward) hs h fun chars _ => ?_
    obtain ⟨-, -, hbit, -⟩ := validate_bits chars s
    rw [hbit, hovf]

/-! `SETSHIFT` (R65). -/

/-- Settles O13: the write is the command's whole effect, and bit 3 of what validation answers reads it. -/
theorem setshiftReplacesShift : Obligations.SetshiftReplacesShift := by
  refine ⟨fun v => decode_encode (.setshift v), fun v _ => exec_setshift_idle v,
    fun v s hs => exec_run_refused hs rfl, fun v s t hs hv h => ?_⟩
  refine exec_startCommand_reports (m := .forward) (s := { s with shift := v }) hs h fun chars _ => ?_
  obtain ⟨-, -, -, hbit, -⟩ := validate_bits chars { s with shift := v }
  rw [hbit, Bool.or_eq_true, decide_eq_true_iff, decide_eq_true_iff]
  change v.toNat < 1 ∨ 25 < v.toNat
  omega

/-! `SETSEED` (R66). -/

/-- Settles O14: the write is the command's whole effect, and bit 4 of what validation answers reads it. -/
theorem setseedReplacesSeed : Obligations.SetseedReplacesSeed := by
  refine ⟨fun v => decode_encode (.setseed v), fun v _ => exec_setseed_idle v,
    fun v s hs => exec_run_refused hs rfl, fun s t hs h => ?_⟩
  refine exec_startCommand_reports (m := .forward) (s := { s with seed := 0x00 }) hs h fun chars _ => ?_
  obtain ⟨-, -, -, -, hbit, -⟩ := validate_bits chars { s with seed := 0x00 }
  rw [hbit, beq_self_eq_true]

/-! `TAPADD` (R67). -/

/-- No check reads the tap set: with another one the start of a job does the same (R67, 44_pipeline_commands.md
R100). -/
theorem startJob_withTaps {m : Mode} {s t : State} (h : startJob m s = .next t) (v : Byte) :
    startJob m { s with taps := v } = .next { t with taps := v } := by
  obtain ⟨chars, hkey, hcases⟩ := startJob_next h
  have hread : readKey { s with taps := v } = readKey s := readKey_congr rfl rfl rfl
  have hsame : validate chars { s with taps := v } = validate chars s := rfl
  rw [startJob_of_readKey (hread.trans hkey), hsame]
  rcases hcases with ⟨hzero, rfl⟩ | ⟨hne, rfl⟩
  · rw [if_pos hzero]
  · rw [if_neg hne]
    rfl

/-- Settles O15: a position in range sets its bit, another one `TAPBAD`, which is bit 5 of what validation answers. -/
theorem tapaddAddsPosition : Obligations.TapaddAddsPosition := by
  refine ⟨fun p => decode_encode (.tapadd p),
    fun p s hs hp => ⟨addTap p s, exec_tapadd_idle p hs, ?_, fun j _ => ?_⟩,
    fun p s hs hp => ?_, fun p s hs => exec_run_refused hs rfl,
    fun i s t j h hend hrst => (exec_parametersGrow h hend hrst).2 j, fun s t hs hbad h => ?_, fun s t v hs h => ?_⟩
  · rw [addTap_of_inRange p s (decide_eq_true hp)]
  · rw [addTap_taps_getLsbD, and_iff_right hp]
  · rw [exec_tapadd_idle p hs, addTap_of_outOfRange p s (decide_eq_false hp.not_ge)]
  · refine exec_startCommand_reports (m := .forward) hs h fun chars _ => ?_
    obtain ⟨-, -, -, -, -, hbit, -⟩ := validate_bits chars s
    rw [hbit, hbad]
  · have hstart := (exec_startCommand .forward hs).symm.trans h
    exact (exec_startCommand .forward (s := { s with taps := v }) hs).trans (startJob_withTaps hstart v)

end Sys2Proof.Proofs

/-! The Vigenère stage (41_vigenere_stage.md). -/

namespace Sys2Proof.Proofs

open Sys2Proof.Machine

/-! Arithmetic modulo 256 (00_scope.md section 5). -/

theorem mod256_toNat (n : Int) : ((mod256 n).toNat : Int) = n % 256 := by
  rw [mod256, BitVec.toNat_ofInt]
  exact Int.toNat_of_nonneg (Int.emod_nonneg n (by decide))

theorem mod256_natCast (n : Nat) : mod256 n = BitVec.ofNat 8 n := BitVec.ofInt_natCast 8 n

theorem ofNat_byte_toNat (s : Byte) : BitVec.ofNat 8 s.toNat = s := by
  rw [BitVec.ofNat_toNat, BitVec.setWidth_eq]

theorem mod256_natCast_toNat (b : Byte) : mod256 (b.toNat : Int) = b := by
  rw [mod256_natCast, ofNat_byte_toNat]

theorem mod256_add (m n : Int) : mod256 (m + n) = mod256 m + mod256 n := BitVec.ofInt_add m n

theorem mod256_sub (m n : Int) : mod256 (m - n) = mod256 m - mod256 n := by
  rw [eq_sub_iff_add_eq, ← mod256_add, Int.sub_add_cancel]

/-! The adders (R74 to R76, 42_caesar_stage.md R80, R81). -/

theorem vigFwd_eq_add (b : Byte) (k : Nat) : vigFwd b k = b + BitVec.ofNat 8 k := by
  rw [vigFwd, mod256_add, mod256_natCast_toNat, mod256_natCast]

theorem vigRev_eq_sub (b : Byte) (k : Nat) : vigRev b k = b - BitVec.ofNat 8 k := by
  rw [vigRev, mod256_sub, mod256_natCast_toNat, mod256_natCast]

/-- The adder subtracts by adding the complement and a carry of 1 (R76). -/
theorem vigRev_eq_add_not (b : Byte) (k : Nat) : vigRev b k = b + ~~~(BitVec.ofNat 8 k) + 1 := by
  rw [vigRev_eq_sub, BitVec.sub_eq_add_neg, BitVec.neg_eq_not_add, ← BitVec.add_assoc]
  rfl

theorem vigFwd_toNat (b : Byte) (k : Nat) : (vigFwd b k).toNat = (b.toNat + k) % 256 := by
  exact_mod_cast mod256_toNat ((b.toNat : Int) + k)

theorem vigRev_toNat (b : Byte) (k : Nat) : ((vigRev b k).toNat : Int) = ((b.toNat : Int) - k) % 256 :=
  mod256_toNat _

theorem caeFwd_eq_vigFwd (b s : Byte) : caeFwd b s = vigFwd b s.toNat := rfl

theorem caeRev_eq_vigRev (b s : Byte) : caeRev b s = vigRev b s.toNat := rfl

/-- Settles O28: the Caesar stage's clause is the Vigenère stage's at the number of the shift byte; the corner cases are
evaluated. -/
theorem stageAddersWrap : Obligations.StageAddersWrap := by
  refine ⟨fun b k => ⟨vigFwd_toNat b k, vigRev_toNat b k, vigFwd_eq_add b k, vigRev_eq_add_not b k⟩,
    fun b s => ⟨vigFwd_toNat b s.toNat, vigRev_toNat b s.toNat, ?_, ?_⟩, by decide⟩
  · rw [caeFwd_eq_vigFwd, vigFwd_eq_add, ofNat_byte_toNat]
  · rw [caeRev_eq_vigRev, vigRev_eq_add_not, ofNat_byte_toNat]

/-! The key indexer (R72). -/

/-- Below the key length, the wrap to 0 is the reduction modulo the key length. -/
theorem advanceKidx_eq_mod {kidx klen : Nat} (h : kidx < klen) : advanceKidx kidx klen = (kidx + 1) % klen := by
  unfold advanceKidx
  split
  case isTrue hwrap => rw [hwrap, Nat.mod_self]
  case isFalse hne => rw [Nat.mod_eq_of_lt (by omega)]

theorem advanceKidx_mod {klen : Nat} (h : 1 ≤ klen) (i : Nat) : advanceKidx (i % klen) klen = (i + 1) % klen := by
  rw [advanceKidx_eq_mod (Nat.mod_lt i h), Nat.mod_add_mod]

/-- Settles O30, by induction on the number of advances. -/
theorem keyIndexIsPositionModLength : Obligations.KeyIndexIsPositionModLength := by
  intro klen i h
  induction i with
  | zero => exact (Nat.zero_mod klen).symm
  | succ i ih => rw [Function.iterate_succ_apply', ih, advanceKidx_mod h]

/-! The stage on sequences (R77, R78). -/

@[simp] theorem vigRev_vigFwd (b : Byte) (k : Nat) : vigRev (vigFwd b k) k = b := by
  rw [vigRev_eq_sub, vigFwd_eq_add, BitVec.add_sub_cancel]

@[simp] theorem vigFwd_vigRev (b : Byte) (k : Nat) : vigFwd (vigRev b k) k = b := by
  rw [vigFwd_eq_add, vigRev_eq_sub, BitVec.sub_add_cancel]

/-- What the stage makes of the byte `b` at position `i` of a text. -/
def vigByteAt (key : List Byte) (encrypt : Bool) (i : Nat) (b : Byte) : Byte :=
  if encrypt then vigFwd b (keyValueAt key i) else vigRev b (keyValueAt key i)

theorem vigFrom_eq_mapIdx (key : List Byte) (e : Bool) (i : Nat) (x : List Byte) :
    vigFrom key e i x = x.mapIdx fun j => vigByteAt key e (i + j) := by
  induction x generalizing i with
  | nil => rfl
  | cons b x ih =>
    have hshift (j : Nat) : i + 1 + j = i + (j + 1) := by omega
    simp only [vigFrom_cons, List.mapIdx_cons, ih, hshift]
    rfl

/-- The stage works position by position (R77). -/
theorem vigApply_eq_mapIdx (x key : List Byte) (e : Bool) : vigApply x key e = x.mapIdx (vigByteAt key e) := by
  simp only [vigApply, vigFrom_eq_mapIdx, Nat.zero_add]

@[simp] theorem vigApply_length (x key : List Byte) (e : Bool) : (vigApply x key e).length = x.length := by
  rw [vigApply_eq_mapIdx, List.length_mapIdx]

theorem vigApply_getElem? (x key : List Byte) (e : Bool) (i : Nat) :
    (vigApply x key e)[i]? = x[i]?.map (vigByteAt key e i) := by
  rw [vigApply_eq_mapIdx, List.getElem?_mapIdx]

theorem keyValueAt_of_getElem? {key : List Byte} {i : Nat} {c : Byte} (h : key[i % key.length]? = some c) :
    keyValueAt key i = keyValue c := by
  rw [keyValueAt, h]

/-- The stage is undone whatever the key, the empty one included: both directions read the same key value. -/
theorem vigApply_reverse_forward (x key : List Byte) : vigApply (vigApply x key true) key false = x := by
  refine List.ext_getElem? fun i => ?_
  have hbyte : vigByteAt key false i ∘ vigByteAt key true i = id := funext fun b => vigRev_vigFwd b _
  rw [vigApply_getElem?, vigApply_getElem?, Option.map_map, hbyte, Option.map_id, id]

/-- Settles O37: the stage maps each position by itself, and at each position the adders undo each other. -/
theorem vigenereStageOnSequences : Obligations.VigenereStageOnSequences := by
  refine ⟨vigApply_length, fun x key e i b c hb hc => ?_, fun b k => ⟨vigRev_vigFwd b k, vigFwd_vigRev b k⟩,
    vigApply_reverse_forward, by decide⟩
  rw [vigApply_getElem?, hb, Option.map_some, vigByteAt, keyValueAt_of_getElem? hc]

/-! The key values (R69, R70). -/

theorem isAlpha_iff (c : Byte) :
    isAlpha c = true ↔ (0x41 ≤ c.toNat ∧ c.toNat ≤ 0x5A) ∨ (0x61 ≤ c.toNat ∧ c.toNat ≤ 0x7A) := by
  simp [isAlpha]

theorem keyValue_of_isAlpha {c : Byte} (h : isAlpha c = true) : keyValue c = (c &&& 0xDF).toNat - 0x41 := if_pos h

/-- Without its case bit an alphabetic code is that of a capital letter. -/
theorem capital_of_isAlpha : ∀ c : Byte, isAlpha c = true →
    0x41 ≤ (c &&& 0xDF).toNat ∧ (c &&& 0xDF).toNat ≤ 0x5A := by decide

/-- The other case of a letter is a letter. -/
theorem isAlpha_xor_caseBit : ∀ c : Byte, isAlpha (c ^^^ 0x20) = isAlpha c := by decide

theorem xor_caseBit_and_mask : ∀ c : Byte, (c ^^^ 0x20) &&& 0xDF = c &&& 0xDF := by decide

theorem keyValue_xor_caseBit {c : Byte} (h : isAlpha c = true) : keyValue (c ^^^ 0x20) = keyValue c := by
  rw [keyValue_of_isAlpha h, keyValue_of_isAlpha ((isAlpha_xor_caseBit c).trans h), xor_caseBit_and_mask]

/-- Settles O29: the key value counts from `A` the code without its case bit. -/
theorem keyValueOfLetters : Obligations.KeyValueOfLetters := by
  refine ⟨isAlpha_iff, fun c h => ?_, by decide⟩
  obtain ⟨hlow, hhigh⟩ := capital_of_isAlpha c h
  have hvalue := keyValue_of_isAlpha h
  exact ⟨by omega, by omega, keyValue_xor_caseBit h⟩

end Sys2Proof.Proofs

/-! The Caesar stage on sequences (42_caesar_stage.md R83, R84). -/

namespace Sys2Proof.Proofs

open Sys2Proof.Machine

/-! The stage's adders are those of the Vigenère stage at the number of the shift byte (R81). -/

@[simp] theorem caeRev_caeFwd (b s : Byte) : caeRev (caeFwd b s) s = b := by
  rw [caeRev_eq_vigRev, caeFwd_eq_vigFwd, vigRev_vigFwd]

@[simp] theorem caeFwd_caeRev (b s : Byte) : caeFwd (caeRev b s) s = b := by
  rw [caeFwd_eq_vigFwd, caeRev_eq_vigRev, vigFwd_vigRev]

theorem caesarApply_getElem? (x : List Byte) (s : Byte) (e : Bool) (i : Nat) :
    (caesarApply x s e)[i]? = x[i]?.map fun b => if e then caeFwd b s else caeRev b s := by
  rw [caesarApply, List.getElem?_map]

theorem caesarApply_forward (x : List Byte) (s : Byte) : caesarApply x s true = x.map (caeFwd · s) := rfl

theorem caesarApply_reverse (x : List Byte) (s : Byte) : caesarApply x s false = x.map (caeRev · s) := rfl

/-- The stage is undone for every 8-bit shift, in range for a job or not (R82). -/
theorem caesarApply_reverse_forward (x : List Byte) (s : Byte) : caesarApply (caesarApply x s true) s false = x := by
  have hbyte : (caeRev · s) ∘ (caeFwd · s) = id := funext fun b => caeRev_caeFwd b s
  rw [caesarApply_forward, caesarApply_reverse, List.map_map, hbyte, List.map_id]

/-- Settles O38: the stage maps each byte by itself, and at each byte the adders undo each other. -/
theorem caesarStageOnSequences : Obligations.CaesarStageOnSequences :=
  ⟨caesarApply_getElem?, fun b s => ⟨caeRev_caeFwd b s, caeFwd_caeRev b s⟩, caesarApply_reverse_forward, by decide⟩

end Sys2Proof.Proofs

/-! The LFSR stage (43_lfsr_stage.md). -/

namespace Sys2Proof.Proofs

open Sys2Proof.Machine

/-! The feedback bit (R88). -/

/-- An exclusive or of bits is 1 when an odd number of them are. -/
theorem foldl_xor_eq_odd_countP (l : List Nat) (bit : Nat → Bool) (acc : Bool) :
    l.foldl (fun acc j => acc ^^ bit j) acc = (acc ^^ decide (l.countP bit % 2 = 1)) := by
  induction l generalizing acc with
  | nil => simp
  | cons j l ih =>
    rw [List.foldl_cons, ih, Bool.xor_assoc]
    congr 1
    cases hbit : bit j with
    | false => rw [List.countP_cons_of_neg (by simp [hbit]), Bool.false_xor]
    | true =>
      rw [List.countP_cons_of_pos hbit, Bool.true_xor, ← decide_not, decide_eq_decide]
      omega

theorem feedback_eq_odd_countP (o : TapOrder) (r t : Byte) : feedback o r t =
    decide ((List.range 8).countP (fun p => t.getLsbD p && r.getLsbD (tapbit o p)) % 2 = 1) := by
  rw [feedback, foldl_xor_eq_odd_countP, Bool.false_xor]

theorem parity_eq_odd_countP (v : Byte) : parity v = decide ((List.range 8).countP v.getLsbD % 2 = 1) := by
  rw [parity, foldl_xor_eq_odd_countP, Bool.false_xor]

theorem feedback_significance_eq_parity (r t : Byte) : feedback .significance r t = parity (r &&& t) := by
  have hbit (p : Nat) : (t.getLsbD p && r.getLsbD p) = (r &&& t).getLsbD p := by
    rw [BitVec.getLsbD_and, Bool.and_comm]
  simp only [feedback_eq_odd_countP, parity_eq_odd_countP, tapbit, hbit]

/-- Counting over the bits from the other end counts the same. -/
theorem countP_range_mirror (f : Nat → Bool) :
    (List.range 8).countP (fun p => f (7 - p)) = (List.range 8).countP f := by
  have hmirror : (List.range 8).map (7 - ·) = (List.range 8).reverse := by decide
  calc (List.range 8).countP (fun p => f (7 - p))
      = ((List.range 8).map (7 - ·)).countP f := List.countP_map.symm
    _ = (List.range 8).countP f := by rw [hmirror, List.countP_reverse]

/-- The two tap orders differ by the direction of the tap set alone. -/
theorem feedback_stored_eq_significance (r t : Byte) :
    feedback .stored r t = feedback .significance r (bitrev8 t) := by
  have hcount : (List.range 8).countP (fun p => t.getLsbD p && r.getLsbD (7 - p)) =
      (List.range 8).countP (fun p => (bitrev8 t).getLsbD p && r.getLsbD p) := by
    rw [← countP_range_mirror fun p => (bitrev8 t).getLsbD p && r.getLsbD p]
    refine List.countP_congr fun p hp => ?_
    have hp8 : p < 8 := List.mem_range.mp hp
    rw [bitrev8_getLsbD t (7 - p) (by omega), show 7 - (7 - p) = p by omega]
  rw [feedback_eq_odd_countP, feedback_eq_odd_countP]
  exact congrArg (fun n => decide (n % 2 = 1)) hcount

@[simp] theorem feedback_zero_taps (o : TapOrder) (r : Byte) : feedback o r 0x00 = false := by
  simp [feedback_eq_odd_countP]

@[simp] theorem feedback_zero_register (o : TapOrder) (t : Byte) : feedback o 0x00 t = false := by
  simp [feedback_eq_odd_countP]

/-- Settles O32: the exclusive or is the parity of a count, and the stored order is the other one with the tap set
reversed. -/
theorem feedbackClosedForms : Obligations.FeedbackClosedForms := by
  refine ⟨feedback_eq_odd_countP .stored, feedback_eq_odd_countP .significance, fun r t => ?_,
    feedback_significance_eq_parity, feedback_zero_taps, by decide, by decide, rfl⟩
  rw [feedback_stored_eq_significance, feedback_significance_eq_parity]

/-! One step of the register (R87, R89, R90). -/

theorem lfsrStep_output (o : TapOrder) (r t : Byte) : (lfsrStep o r t).2 = r.getLsbD 0 := rfl

theorem lfsrStep_front (o : TapOrder) (r t : Byte) : (lfsrStep o r t).1.getLsbD 7 = feedback o r t :=
  (shiftIn_getLsbD _ r).1

theorem lfsrStep_getLsbD (o : TapOrder) (r t : Byte) {j : Nat} (hj : j < 7) :
    (lfsrStep o r t).1.getLsbD j = r.getLsbD (j + 1) :=
  (shiftIn_getLsbD _ r).2 j hj

/-- Settles O31 by the bits of the shift. -/
theorem lfsrStepBits : Obligations.LfsrStepBits := fun o r t =>
  ⟨lfsrStep_output o r t, lfsrStep_front o r t, fun _ => lfsrStep_getLsbD o r t⟩

/-- Until the feedback bits reach bit `j`, it holds the bits of the register that stood above it. -/
theorem iterate_lfsrStep_getLsbD (o : TapOrder) (r t : Byte) {n j : Nat} (h : j + n < 8) :
    ((fun q => (lfsrStep o q t).1)^[n] r).getLsbD j = r.getLsbD (j + n) := by
  induction n generalizing j with
  | zero => rfl
  | succ n ih =>
    rw [Function.iterate_succ_apply', lfsrStep_getLsbD o _ t (by omega), ih (by omega), Nat.add_right_comm]
    rfl

/-! The keystream byte (R91, R97). -/

theorem ksSteps_fst (o : TapOrder) (t r k : Byte) (n : Nat) :
    (ksSteps o t n r k).1 = (fun q => (lfsrStep o q t).1)^[n] r := by
  induction n generalizing r k with
  | zero => rfl
  | succ n ih => rw [ksSteps_succ, ih, Function.iterate_succ_apply]

/-- Packing `n` output bits moves the bits packed before up by `n`. -/
theorem ksSteps_snd_getLsbD_add (o : TapOrder) (t r k : Byte) {n j : Nat} (h : j + n < 8) :
    (ksSteps o t n r k).2.getLsbD (j + n) = k.getLsbD j := by
  induction n generalizing r k j with
  | zero => rfl
  | succ n ih =>
    rw [ksSteps_succ, show j + (n + 1) = (j + 1) + n by omega, ih _ _ (by omega)]
    exact (packBit_getLsbD k _).2 j (by omega)

/-- The output bit of step `i` is followed by those of the `m` steps after it. -/
theorem ksSteps_snd_getLsbD (o : TapOrder) (t r k : Byte) {i m : Nat} (h : m < 8) :
    (ksSteps o t (i + 1 + m) r k).2.getLsbD m = (lfsrStep o ((fun q => (lfsrStep o q t).1)^[i] r) t).2 := by
  induction i generalizing r k with
  | zero =>
    have hbit := ksSteps_snd_getLsbD_add o t (lfsrStep o r t).1
      ((k <<< 1) ||| (BitVec.ofBool (lfsrStep o r t).2).setWidth 8) (n := m) (j := 0) (by omega)
    rw [Nat.zero_add] at hbit
    rw [show 0 + 1 + m = m + 1 by omega, ksSteps_succ, hbit]
    exact (packBit_getLsbD k _).1
  | succ i ih =>
    rw [show i + 1 + 1 + m = (i + 1 + m) + 1 by omega, ksSteps_succ, ih, Function.iterate_succ_apply]

theorem ksByte_fst (o : TapOrder) (r t : Byte) : (ksByte o r t).1 = (fun q => (lfsrStep o q t).1)^[8] r :=
  ksSteps_fst o t r 0x00 8

theorem ksByte_snd_getLsbD (o : TapOrder) (r t : Byte) {n : Nat} (h : n < 8) :
    (ksByte o r t).2.getLsbD (7 - n) = (lfsrStep o ((fun q => (lfsrStep o q t).1)^[n] r) t).2 := by
  have hbit := ksSteps_snd_getLsbD o t r 0x00 (i := n) (m := 7 - n) (by omega)
  rwa [show n + 1 + (7 - n) = 8 by omega] at hbit

/-- Settles O33, by induction on the steps packed. -/
theorem keystreamBytePacksEightSteps : Obligations.KeystreamBytePacksEightSteps := fun o r t =>
  ⟨ksByte_fst o r t, fun _ => ksByte_snd_getLsbD o r t⟩

/-- The eight output bits are the register's own, from its bit 0 up: no feedback bit reaches bit 0 before. -/
theorem ksByte_snd (o : TapOrder) (r t : Byte) : (ksByte o r t).2 = bitrev8 r := by
  refine BitVec.eq_of_getLsbD_eq fun j hj => ?_
  have hbit := ksByte_snd_getLsbD o r t (n := 7 - j) (by omega)
  rw [lfsrStep_output, iterate_lfsrStep_getLsbD o r t (by omega), show 7 - (7 - j) = j by omega, Nat.zero_add] at hbit
  rw [hbit, bitrev8_getLsbD r j hj]

/-- `ENC` and `DEC` with valid parameters start the job (44_pipeline_commands.md R101). -/
theorem exec_startCommand_valid {m : Mode} {s t : State} (hs : s.st = .idle) (hvalid : s.ParametersValid)
    (h : exec (startCommand m) s = .next t) : t = { s with mode := m, kidx := 0, lfsr := s.seed, st := .run } := by
  rw [exec_startCommand m hs] at h
  obtain ⟨chars, hkey, ⟨_, ht⟩ | ⟨hne, _⟩⟩ := startJob_next h
  · exact ht
  · exact absurd ((validate_eq_zero_iff hkey).mpr hvalid) hne

/-- Settles O34: a job starts with the register at the seed, and a keystream byte is its register reversed. -/
theorem firstKeystreamByteIsReversedSeed : Obligations.FirstKeystreamByteIsReversedSeed := by
  refine ⟨fun o seed t j hj => ?_, fun m s t hs hvalid h => ?_⟩
  · rw [ksByte_snd, bitrev8_getLsbD seed j hj]
  · obtain rfl := exec_startCommand_valid hs hvalid h
    exact ksByte_snd _ s.seed _

/-! The degenerate registers and tap sets (R95, R96). -/

theorem lfsrStep_zero_register (o : TapOrder) (t : Byte) : lfsrStep o 0x00 t = (0x00, false) := by
  rw [lfsrStep, feedback_zero_register]
  rfl

theorem ksByte_zero_register (o : TapOrder) (t : Byte) : ksByte o 0x00 t = (0x00, 0x00) := by
  refine Prod.ext ?_ (ksByte_snd o 0x00 t)
  rw [ksByte_fst]
  exact Function.iterate_fixed (congrArg Prod.fst (lfsrStep_zero_register o t)) 8

theorem shiftIn_false (r : Byte) : shiftIn false r = r >>> 1 := by
  simp [shiftIn]

/-- Without taps a step only shifts. -/
theorem iterate_lfsrStep_zero_taps (o : TapOrder) (r : Byte) (n : Nat) :
    (fun q => (lfsrStep o q 0x00).1)^[n] r = r >>> n := by
  induction n with
  | zero => rfl
  | succ n ih =>
    rw [Function.iterate_succ_apply', ih, lfsrStep, feedback_zero_taps, shiftIn_false, BitVec.shiftRight_add]

/-- Settles O35: every feedback bit is 0, so the zero register stays and the empty tap set shifts the register out. -/
theorem degenerateRegisters : Obligations.DegenerateRegisters := by
  refine ⟨fun o t => ⟨lfsrStep_zero_register o t, ksByte_zero_register o t⟩, fun o r => ?_⟩
  rw [ksByte_fst, iterate_lfsrStep_zero_taps]
  exact BitVec.ushiftRight_eq_zero (Nat.le_refl 8)

/-! The stage on sequences (R93, R98). -/

/-- The keystream byte at position `i` of a text, from the register `r` on. -/
def keystreamByteAt (o : TapOrder) (t r : Byte) (i : Nat) : Byte :=
  (ksByte o ((fun q => (ksByte o q t).1)^[i] r) t).2

/-- The keystream depends on the position alone and not on the text (R98). -/
theorem streamFrom_eq_mapIdx (o : TapOrder) (t r : Byte) (x : List Byte) :
    streamFrom o t r x = x.mapIdx fun i b => b ^^^ keystreamByteAt o t r i := by
  induction x generalizing r with
  | nil => rfl
  | cons b x ih =>
    rw [streamFrom_cons, List.mapIdx_cons, ih]
    rfl

@[simp] theorem streamApply_length (o : TapOrder) (x : List Byte) (seed t : Byte) :
    (streamApply o x seed t).length = x.length := by
  rw [streamApply, streamFrom_eq_mapIdx, List.length_mapIdx]

theorem streamApply_getElem? (o : TapOrder) (x : List Byte) (seed t : Byte) (i : Nat) :
    (streamApply o x seed t)[i]? = x[i]?.map (· ^^^ keystreamByteAt o t seed i) := by
  rw [streamApply, streamFrom_eq_mapIdx, List.getElem?_mapIdx]

/-- Both applications make the same keystream, and an exclusive or with the same byte undoes itself. -/
theorem streamApply_streamApply (o : TapOrder) (x : List Byte) (seed t : Byte) :
    streamApply o (streamApply o x seed t) seed t = x := by
  refine List.ext_getElem? fun i => ?_
  have hbyte : (· ^^^ keystreamByteAt o t seed i) ∘ (· ^^^ keystreamByteAt o t seed i) = id :=
    funext fun b => by rw [Function.comp_apply, BitVec.xor_assoc, BitVec.xor_self, BitVec.xor_zero, id]
  rw [streamApply_getElem?, streamApply_getElem?, Option.map_map, hbyte, Option.map_id, id]

/-- Settles O39: the stage maps each position by itself; the example's byte is its seed reversed. -/
theorem streamStageOnSequences : Obligations.StreamStageOnSequences := by
  refine ⟨streamApply_length, fun o x seed t b i hb => ?_, streamApply_streamApply, fun o => ?_⟩
  · rw [streamApply_getElem?, hb, Option.map_some, keystreamByteAt]
  · rw [streamApply, streamFrom_cons, ksByte_snd]
    rfl

end Sys2Proof.Proofs

/-! The job commands (44_pipeline_commands.md R99 to R107, R114). -/

namespace Sys2Proof.Proofs

open Sys2Proof.Machine

/-! Validation (R100). -/

/-- With readable key cells, what the start of a job does is what one set of flags says, in either mode. -/
theorem exec_startCommand_readable {s : State} (hs : s.st = .idle)
    (hread : ∀ a, a < s.klen → ∃ c, memRead s a = .ok c) :
    ∃ chars, readKey s = .ok chars ∧ ∀ m, exec (startCommand m) s =
      if validate chars s = 0x00 then .next { s with mode := m, kidx := 0, lfsr := s.seed, st := .run }
      else .next (raiseFault (validate chars s) s) := by
  obtain ⟨chars, hkey⟩ := readKey_exists hread
  exact ⟨chars, hkey, fun m => (exec_startCommand m hs).trans (startJob_of_readKey hkey)⟩

/-- Settles O21: the set of flags is what validation answers for the key as read. -/
theorem validationReportsEveryFailure : Obligations.ValidationReportsEveryFailure := by
  intro s hs hread
  obtain ⟨chars, hkey, hexec⟩ := exec_startCommand_readable hs hread
  obtain ⟨h0, h1, h2, h3, h4, h5, h6, h7⟩ := validate_bits chars s
  refine ⟨validate chars s, ?_, ?_, ?_, ?_, ?_, ?_, h6, h7,
    fun m => ⟨fun hzero => (hexec m).trans (if_pos hzero), fun hne => (hexec m).trans (if_neg hne)⟩⟩
  · rw [h0, beq_iff_eq]
  · rw [h1, readKey_any hkey]
    simp only [Bool.not_eq_true', exists_and_left]
  · rw [h2]
  · rw [h3, Bool.or_eq_true, decide_eq_true_iff, decide_eq_true_iff]
  · rw [h4, beq_iff_eq]
  · rw [h5]

/-! `ENC` and `DEC` (R101, R102). -/

/-- Valid parameters have readable key cells. -/
theorem readable_of_parametersValid {s : State} (h : s.ParametersValid) :
    ∀ a, a < s.klen → ∃ c, memRead s a = .ok c := fun a ha =>
  (h.key_alphabetic a ha).imp fun _ hc => hc.1

/-- With valid parameters the job starts: no read of the key stops the model. -/
theorem exec_startCommand_starts (m : Mode) {s : State} (hs : s.st = .idle) (hvalid : s.ParametersValid) :
    exec (startCommand m) s = .next { s with mode := m, kidx := 0, lfsr := s.seed, st := .run } := by
  obtain ⟨chars, hkey, hexec⟩ := exec_startCommand_readable hs (readable_of_parametersValid hvalid)
  rw [hexec m, if_pos ((validate_eq_zero_iff hkey).mpr hvalid)]

/-- With invalid parameters both start commands take one and the same fault, of bits 0 to 5. -/
theorem exec_startCommand_faults {s : State} (hs : s.st = .idle)
    (hread : ∀ a, a < s.klen → ∃ c, memRead s a = .ok c) (hinvalid : ¬ s.ParametersValid) :
    ∃ f : Byte, f ≠ 0x00 ∧ f &&& 0xC0 = 0x00 ∧
      ∀ m, exec (startCommand m) s = .next { s with st := .fault, err := f } := by
  obtain ⟨chars, hkey, hexec⟩ := exec_startCommand_readable hs hread
  have hne : validate chars s ≠ 0x00 := fun hzero => hinvalid ((validate_eq_zero_iff hkey).mp hzero)
  exact ⟨validate chars s, hne, validate_and_high chars s, fun m => (hexec m).trans (if_neg hne)⟩

/-- Settles O22: the four clauses for `ENC` as the start command of forward mode. -/
theorem encStartsForwardJob : Obligations.EncStartsForwardJob := by
  refine ⟨decode_encode .enc, fun s => exec_startCommand_starts .forward, fun s hs => exec_run_refused hs rfl,
    fun s hs hread hinvalid => ?_⟩
  obtain ⟨f, hne, hhigh, hexec⟩ := exec_startCommand_faults hs hread hinvalid
  exact ⟨f, hne, hhigh, hexec .forward⟩

/-- Settles O23: the clauses for the start command of reverse mode; its fault does not depend on the mode. -/
theorem decStartsReverseJob : Obligations.DecStartsReverseJob := by
  refine ⟨decode_encode .dec, fun s => exec_startCommand_starts .reverse, fun s hs => exec_run_refused hs rfl,
    fun s hs hread hinvalid => ?_⟩
  obtain ⟨f, hne, hhigh, hexec⟩ := exec_startCommand_faults hs hread hinvalid
  exact ⟨f, hne, hhigh, hexec .reverse, (hexec .forward).trans (hexec .reverse).symm⟩

/-! `DATA` (R103 to R105, R109). -/

/-- A `DATA` in `RUN` whose key character can be read: the multiplexer's byte, the advance of the register and of the
indexer, and the frame. -/
theorem exec_data_memRead (b : Byte) {c : Byte} {s : State} (hs : s.st = .run) (hc : memRead s s.kidx = .ok c) :
    exec (.data b) s = .next
      { emit (muxPath s.mode b (keyValue c) s.shift (ksByte s.config.tapOrder s.lfsr s.taps).2) s with
        lfsr := (ksByte s.config.tapOrder s.lfsr s.taps).1
        kidx := advanceKidx s.kidx s.klen } :=
  (whenRunning_run hs _).trans (transformByte_of_memRead hc)

/-- Settles O24: in forward mode the multiplexer's byte is the forward path's, at the letter's key value. -/
theorem dataForward : Obligations.DataForward := by
  intro b c s hs hmode hc halpha
  have hexec := exec_data_memRead b hs hc
  rw [hmode, keyValue_of_isAlpha halpha] at hexec
  exact ⟨_, hexec, rfl⟩

/-- Settles O25: in reverse mode the multiplexer's byte is the reverse path's, at the letter's key value. -/
theorem dataReverse : Obligations.DataReverse := by
  intro b c s hs hmode hc halpha
  have hexec := exec_data_memRead b hs hc
  rw [hmode, keyValue_of_isAlpha halpha] at hexec
  exact ⟨_, hexec, rfl⟩

/-- The register and the indexer after a `DATA` in `RUN`, from the register, the indexer, the taps and the key length
alone. -/
theorem exec_data_advance {b : Byte} {s t : State} (hs : s.st = .run) (h : exec (.data b) s = .next t) :
    t.lfsr = (ksByte s.config.tapOrder s.lfsr s.taps).1 ∧ t.kidx = advanceKidx s.kidx s.klen := by
  rw [exec_permitted (by simp [permittedIn, hs])] at h
  obtain ⟨c, -, rfl⟩ := transformByte_next h
  exact ⟨rfl, rfl⟩

/-- Settles O26: the advance is the same expression in both runs. -/
theorem advanceIgnoresModeAndByte : Obligations.AdvanceIgnoresModeAndByte := by
  intro b b' m s t t' hs h h'
  obtain ⟨hlfsr, hkidx⟩ := exec_data_advance hs h
  obtain ⟨hlfsr', hkidx'⟩ := exec_data_advance (s := { s with mode := m }) hs h'
  exact ⟨hlfsr'.trans hlfsr.symm, hkidx'.trans hkidx.symm⟩

/-! `END` and `RST` (R106, R107). -/

theorem exec_endJob_run {s : State} (hs : s.st = .run) : exec .endJob s = .next (clearRegisters s) :=
  whenRunning_run hs _

/-- Settles O45: in `RUN` `END` is the clearing of the registers, whose key has length 0. -/
theorem endClearsEveryRegister : Obligations.EndClearsEveryRegister :=
  ⟨decode_encode .endJob, fun s hs => ⟨clearRegisters s, exec_endJob_run hs, rfl, rfl⟩,
    fun _ hs => whenRunning_idle hs _⟩

/-- The opcode of `RST` is legal with operand zero alone (30_encoding.md R54). -/
theorem decode_rst_operand {arg : Byte} (h : arg ≠ 0x00) : ∃ e, decode (0x0F#8 ++ arg) = .error e := by
  rw [exists_decode_error_iff, exists_encode_eq_iff]
  rintro (hop | ⟨-, harg⟩)
  · rw [opField_append] at hop
    revert hop
    decide
  · exact h ((argField_append 0x0F arg).symm.trans harg)

/-- Settles O46: `RST` is the clearing of the registers in every state, and `FAULT` discards all else. -/
theorem rstClearsEveryRegister : Obligations.RstClearsEveryRegister :=
  ⟨decode_encode .rst, fun _ => decode_rst_operand, fun s => ⟨clearRegisters s, rfl, rfl, rfl⟩,
    fun _ _ => exec_fault⟩

/-! The order of tests for one word (R99). -/

/-- The start of a job runs it on valid parameters, and on others writes `ST` and a set of flags that is not empty. -/
theorem exec_startCommand_next {m : Mode} {s t : State} (hs : s.st = .idle) (h : exec (startCommand m) s = .next t) :
    (s.ParametersValid → t.st = .run) ∧
    (¬ s.ParametersValid → t = { s with st := .fault, err := t.err } ∧ t.err ≠ 0x00) := by
  rw [exec_startCommand m hs] at h
  obtain ⟨chars, hkey, hcases⟩ := startJob_next h
  rw [← validate_eq_zero_iff hkey]
  rcases hcases with ⟨hzero, rfl⟩ | ⟨hne, rfl⟩
  · exact ⟨fun _ => rfl, fun hne => absurd hzero hne⟩
  · exact ⟨fun hzero => absurd hzero hne, fun _ => ⟨rfl, hne⟩⟩

/-- A push leaves `ST`. -/
theorem pushKey_st {c : Byte} {s t : State} (h : pushKey c s = .next t) : t.st = s.st := by
  rcases pushKey_next h with ⟨_, rfl⟩ | ⟨_, rfl⟩ <;> rfl

/-- Settles O10: the tests in their order, then the table of permitted commands row by row. -/
theorem stepOrderOfTests : Obligations.StepOrderOfTests := by
  intro s w
  refine ⟨fun hw => ⟨clearRegisters s, takeWord_of_decode hw s, rfl⟩, fun hw hs => ?_, fun hs e hw => ?_,
    fun hs i hw hp => (takeWord_of_decode hw s).trans (exec_refused hs hp),
    fun _ i hw hp => ⟨takeWord_of_decode hw s, fun t h => ?_⟩⟩
  · cases hdecode : decode w with
    | error e => rw [takeWord_of_decode_error hdecode, if_pos hs]
    | ok i =>
      have hi : i ≠ .rst := fun hrst => hw (hrst ▸ hdecode)
      rw [takeWord_of_decode hdecode, exec_fault hs hi]
  · exact (takeWord_of_decode_error hw s).trans (congrArg _ (if_neg hs))
  · cases i with
    | keypush c =>
      have hs : s.st = .idle := by simpa [permittedIn] using hp
      rw [exec_keypush_idle c hs] at h
      exact ⟨hs, (pushKey_st h).trans hs⟩
    | setshift v =>
      have hs : s.st = .idle := by simpa [permittedIn] using hp
      cases (exec_setshift_idle v hs).symm.trans h
      exact ⟨hs, hs⟩
    | setseed v =>
      have hs : s.st = .idle := by simpa [permittedIn] using hp
      cases (exec_setseed_idle v hs).symm.trans h
      exact ⟨hs, hs⟩
    | tapadd p =>
      have hs : s.st = .idle := by simpa [permittedIn] using hp
      cases (exec_tapadd_idle p hs).symm.trans h
      exact ⟨hs, (addTap_st p s).trans hs⟩
    | enc =>
      have hs : s.st = .idle := by simpa [permittedIn] using hp
      exact ⟨hs, exec_startCommand_next (m := .forward) hs h⟩
    | dec =>
      have hs : s.st = .idle := by simpa [permittedIn] using hp
      exact ⟨hs, exec_startCommand_next (m := .reverse) hs h⟩
    | data b =>
      have hs : s.st = .run := by simpa [permittedIn] using hp
      exact ⟨hs, exec_data_run hs h⟩
    | endJob =>
      have hs : s.st = .run := by simpa [permittedIn] using hp
      cases (exec_endJob_run hs).symm.trans h
      exact ⟨hs, rfl⟩
    | rst =>
      cases h
      rfl

/-! The empty job (R114). -/

/-- Settles O47: the start loads the register with the seed, `END` clears it, and no stage emits a byte of its own. -/
theorem emptyJob : Obligations.EmptyJob := by
  refine ⟨fun m s hs hvalid => ⟨_, _, exec_startCommand_starts m hs hvalid, rfl, exec_endJob_run rfl, rfl⟩,
    fun m o p => ?_, fun m s t hs hinvalid h => ?_⟩
  · cases m <;> rfl
  · rw [((exec_startCommand_next hs h).2 hinvalid).1]

/-! The machine never stops (R103, 20_memory.md R41, 10_state.md R22). -/

section
variable {s : State}

/-- In a state that satisfies the invariants every key cell below `KLEN` exists and holds a character. -/
theorem inv_memRead (hs : s.Inv) : ∀ a, a < s.klen → ∃ c, memRead s a = .ok c := by
  intro a ha
  have hlisted : a ∈ s.key.map Prod.fst := by rwa [hs.key_cells, List.mem_range]
  obtain ⟨c, hc⟩ := Option.isSome_iff_exists.mp ((Memory.read_isSome_iff s.key a).mpr hlisted)
  exact ⟨c, (memRead_ok_iff s a c).mpr ⟨ha.trans_le hs.key_fits, hc⟩⟩

/-- A push answers a next state: the cell it writes is below the capacity. -/
theorem pushKey_stepsOn (c : Byte) (s : State) : ∃ t, pushKey c s = .next t := by
  by_cases hroom : s.klen < s.config.keyMax
  · exact ⟨_, pushKey_room c hroom⟩
  · exact ⟨_, pushKey_full c hroom⟩

/-- The start of a job reads the cells below `KLEN` alone. -/
theorem startJob_stepsOn (hs : s.Inv) (m : Mode) : ∃ t, startJob m s = .next t := by
  obtain ⟨chars, hkey⟩ := readKey_exists (inv_memRead hs)
  rw [startJob_of_readKey hkey]
  split <;> exact ⟨_, rfl⟩

/-- A running job reads the cell at `KIDX`, which is below `KLEN`. -/
theorem transformByte_stepsOn (hs : s.Inv) (hrun : s.st = .run) (b : Byte) : ∃ t, transformByte b s = .next t := by
  obtain ⟨-, -, hkidx⟩ := hs.run_bundle hrun
  obtain ⟨c, hc⟩ := inv_memRead hs s.kidx hkidx
  exact ⟨_, transformByte_of_memRead hc⟩

/-- Every command answers a next state. -/
theorem exec_stepsOn (hs : s.Inv) (i : Instr) : ∃ t, exec i s = .next t := by
  by_cases hp : permittedIn i s.st = true
  · rw [exec_permitted hp]
    cases i with
    | keypush c => exact pushKey_stepsOn c s
    | enc => exact startJob_stepsOn hs .forward
    | dec => exact startJob_stepsOn hs .reverse
    | data b => exact transformByte_stepsOn hs (by simpa [permittedIn] using hp) b
    | _ => exact ⟨_, rfl⟩
  · rw [Bool.not_eq_true] at hp
    by_cases hfault : s.st = .fault
    · have hi : i ≠ .rst := by
        rintro rfl
        cases hp
      exact ⟨s, exec_fault hfault hi⟩
    · exact ⟨_, exec_refused hfault hp⟩

/-- Every word answers a next state. -/
theorem takeWord_stepsOn (hs : s.Inv) (w : CommandWord) : ∃ t, takeWord w s = .next t := by
  cases hw : decode w with
  | error e => exact ⟨_, takeWord_of_decode_error hw s⟩
  | ok i => exact takeWord_of_decode hw s ▸ exec_stepsOn hs i

/-- A step that takes no event holds the state. -/
theorem step_holds (hword : ∀ w rest, ¬ s.takesWord w rest) (hpin : ∀ e rest, ¬ s.takesPin e rest) :
    step s = .next s := by
  simp only [step, hostStep]
  split
  case h_1 => rfl
  case h_2 e rest hin => exact absurd (.inl hin) (hpin e rest)
  case h_3 w rest hin =>
    have hready : ¬ s.cmdReady = true := fun hready => hword w rest ⟨hin, hready⟩
    rw [if_neg hready]
    split
    case h_1 e later => exact absurd (.inr ⟨w, later, by simpa using hready, hin, rfl⟩) (hpin e (.word w :: later))
    case h_2 => rfl
    case h_3 => rfl

end

/-- Settles O50: a transferred word is the one case in which a step reads the key space. -/
theorem invariantStatesNeverStop : Obligations.InvariantStatesNeverStop := by
  intro s hs
  by_cases hword : ∃ w rest, s.takesWord w rest
  · obtain ⟨w, rest, htakes⟩ := hword
    obtain ⟨t, ht⟩ := takeWord_stepsOn (inv_withInput hs rest) w
    exact ⟨t, (step_takesWord htakes).trans ht⟩
  · by_cases hpin : ∃ e rest, s.takesPin e rest
    · obtain ⟨e, rest, htakes⟩ := hpin
      exact ⟨_, step_takesPin htakes⟩
    · push Not at hword hpin
      exact ⟨s, step_holds hword hpin⟩

end Sys2Proof.Proofs

/-! The job as a function on sequences, and on the engine (44_pipeline_commands.md R108 to R113). -/

namespace Sys2Proof.Proofs

open Sys2Proof.Machine

/-! The register and the two paths of the multiplexer. -/

/-- Settles O36: a keystream byte is eight steps. -/
theorem registerAfterBytes : Obligations.RegisterAfterBytes := by
  intro o seed t n
  have hbyte : (fun r => (ksByte o r t).1) = (fun r => (lfsrStep o r t).1)^[8] := funext fun r => ksByte_fst o r t
  rw [hbyte, Function.iterate_mul]

@[simp] theorem reversePath_forwardPath (b : Byte) (k : Nat) (shift ks : Byte) :
    reversePath (forwardPath b k shift ks) k shift ks = b := by
  rw [reversePath, forwardPath, BitVec.xor_assoc, BitVec.xor_self, BitVec.xor_zero, caeRev_caeFwd, vigRev_vigFwd]

@[simp] theorem forwardPath_reversePath (b : Byte) (k : Nat) (shift ks : Byte) :
    forwardPath (reversePath b k shift ks) k shift ks = b := by
  rw [forwardPath, reversePath, vigFwd_vigRev, caeFwd_caeRev, BitVec.xor_assoc, BitVec.xor_self, BitVec.xor_zero]

/-! What a job computes, position by position (R110). -/

/-- What a job in the mode `m` makes of the byte `b` at position `i` of its text. -/
def jobByteAt (m : Mode) (o : TapOrder) (p : Bundle) (i : Nat) (b : Byte) : Byte :=
  muxPath m b (keyValueAt p.key i) p.shift (keystreamByteAt o p.taps p.seed i)

theorem encrypt_eq_mapIdx (o : TapOrder) (x : List Byte) (p : Bundle) :
    encrypt o x p = x.mapIdx (jobByteAt .forward o p) := by
  refine List.ext_getElem? fun i => ?_
  rw [encrypt, streamApply_getElem?, caesarApply_getElem?, vigApply_getElem?, Option.map_map, Option.map_map,
    List.getElem?_mapIdx]
  rfl

theorem decrypt_eq_mapIdx (o : TapOrder) (x : List Byte) (p : Bundle) :
    decrypt o x p = x.mapIdx (jobByteAt .reverse o p) := by
  refine List.ext_getElem? fun i => ?_
  rw [decrypt, vigApply_getElem?, caesarApply_getElem?, streamApply_getElem?, Option.map_map, Option.map_map,
    List.getElem?_mapIdx]
  rfl

theorem jobOutput_eq_mapIdx (m : Mode) (o : TapOrder) (x : List Byte) (p : Bundle) :
    jobOutput m o x p = x.mapIdx (jobByteAt m o p) := by
  cases m with
  | forward => exact encrypt_eq_mapIdx o x p
  | reverse => exact decrypt_eq_mapIdx o x p

/-- Settles O41: both pipelines map each position to one byte. -/
theorem pipelinePreservesLength : Obligations.PipelinePreservesLength := fun o x p =>
  ⟨by rw [encrypt_eq_mapIdx, List.length_mapIdx], by rw [decrypt_eq_mapIdx, List.length_mapIdx]⟩

/-- Mapping each position twice gives the text back when the two maps undo each other at each position. -/
theorem mapIdx_mapIdx_of_leftInverse {f g : Nat → Byte → Byte} (h : ∀ i b, g i (f i b) = b) (x : List Byte) :
    (x.mapIdx f).mapIdx g = x := by
  refine List.ext_getElem? fun i => ?_
  have hbyte : g i ∘ f i = id := funext (h i)
  rw [List.getElem?_mapIdx, List.getElem?_mapIdx, Option.map_map, hbyte, Option.map_id, id]

/-- `Decrypt` undoes `Encrypt`, whatever the bundle (R112). -/
theorem decrypt_encrypt (o : TapOrder) (x : List Byte) (p : Bundle) : decrypt o (encrypt o x p) p = x := by
  rw [encrypt_eq_mapIdx, decrypt_eq_mapIdx]
  exact mapIdx_mapIdx_of_leftInverse (fun _ b => reversePath_forwardPath b _ _ _) x

/-- `Encrypt` undoes `Decrypt`, whatever the bundle (R112). -/
theorem encrypt_decrypt (o : TapOrder) (x : List Byte) (p : Bundle) : encrypt o (decrypt o x p) p = x := by
  rw [encrypt_eq_mapIdx, decrypt_eq_mapIdx]
  exact mapIdx_mapIdx_of_leftInverse (fun _ b => forwardPath_reversePath b _ _ _) x

/-! Commands one after another. -/

/-- The command port takes the commands one after another, and each completes: from `s` they lead to `t`. -/
inductive Runs : List Instr → State → State → Prop
  | nil (s : State) : Runs [] s s
  | cons {i : Instr} {is : List Instr} {s t u : State} (ready : s.cmdReady = true) (effect : exec i s = .next t)
      (later : Runs is t u) : Runs (i :: is) s u

theorem Runs.append {is js : List Instr} {s t u : State} (h : Runs is s t) (h' : Runs js t u) :
    Runs (is ++ js) s u := by
  induction h with
  | nil s => exact h'
  | cons ready effect _ ih => exact .cons ready effect (ih h')

theorem Runs.single {i : Instr} {s t : State} (ready : s.cmdReady = true) (effect : exec i s = .next t) :
    Runs [i] s t :=
  .cons ready effect (.nil t)

/-- The key is read from the key space, the capacity and `KLEN` alone (10_state.md R22). -/
theorem readKey_ok_congr {s t : State} {chars : List Byte} (h : readKey s = .ok chars) (hkey : t.key = s.key)
    (hconfig : t.config = s.config) (hklen : t.klen = s.klen) : readKey t = .ok chars :=
  (readKey_congr hkey hconfig hklen).trans h

theorem startJob_withInput {m : Mode} {s t : State} (h : startJob m s = .next t) (input : List HostEvent) :
    startJob m { s with input := input } = .next { t with input := input } := by
  obtain ⟨chars, hkey, hcases⟩ := startJob_next h
  have hread : readKey { s with input := input } = .ok chars := readKey_ok_congr hkey rfl rfl rfl
  rw [startJob_of_readKey hread]
  rcases hcases with ⟨hzero, rfl⟩ | ⟨hne, rfl⟩
  · exact if_pos hzero
  · exact if_neg hne

theorem addTap_withInput (p : Byte) (s : State) (input : List HostEvent) :
    addTap p { s with input := input } = { addTap p s with input := input } := by
  unfold addTap
  split <;> rfl

/-- No command reads what the host does next (20_memory.md R36). -/
theorem exec_withInput {i : Instr} {s t : State} (h : exec i s = .next t) (input : List HostEvent) :
    exec i { s with input := input } = .next { t with input := input } := by
  rcases exec_next h with ⟨hfault, hi, rfl⟩ | ⟨hne, hp, rfl⟩ | hp
  · exact exec_fault (s := { t with input := input }) hfault hi
  · exact exec_refused (s := { s with input := input }) hne hp
  · rw [exec_permitted hp] at h
    rw [exec_permitted (s := { s with input := input }) hp]
    cases i with
    | keypush c =>
      rcases pushKey_next h with ⟨hroom, rfl⟩ | ⟨hfull, rfl⟩
      · exact pushKey_room (s := { s with input := input }) c hroom
      · exact pushKey_full (s := { s with input := input }) c hfull
    | setshift v => cases h; rfl
    | setseed v => cases h; rfl
    | tapadd p => cases h; exact congrArg _ (addTap_withInput p s input)
    | enc => exact startJob_withInput h input
    | dec => exact startJob_withInput h input
    | data b =>
      obtain ⟨c, hc, rfl⟩ := transformByte_next h
      exact transformByte_of_memRead (s := { s with input := input }) hc
    | endJob => cases h; rfl
    | rst => cases h; rfl

/-- A run whose first step answers a next state goes on from there. -/
theorem core_run_succ {s t : State} (h : step s = .next t) (n : Nat) :
    Sys2Proof.core.run (n + 1) s = Sys2Proof.core.run n t := by
  have hcore : Sys2Proof.core.step s = .next t := h
  simp only [Host.Core.run, hcore]

/-- The step on a presented command's word, where the port can take it, is the command. -/
theorem step_presented {i : Instr} {s t : State} (hready : s.cmdReady = true) (h : exec i s = .next t)
    (later : List HostEvent) :
    step { s with input := .word (encode i) :: later } = .next { t with input := later } := by
  rw [step_takesWord (s := { s with input := .word (encode i) :: later }) ⟨rfl, hready⟩,
    takeWord_of_decode (decode_encode i)]
  exact exec_withInput h later

/-- Presenting commands that run one after another runs the machine through them. -/
theorem core_run_presenting {is : List Instr} {s t : State} (h : Runs is s t) (rest : List HostEvent) :
    Sys2Proof.core.run is.length { s with input := presenting is ++ rest } = .next { t with input := rest } := by
  induction h with
  | nil s => rfl
  | cons ready effect _ ih => exact (core_run_succ (step_presented ready effect _) _).trans ih

/-- Commands one after another leave `config`, `input` and the level of `out_ready`. -/
theorem Runs.host {is : List Instr} {s t : State} (h : Runs is s t) :
    t.config = s.config ∧ t.input = s.input ∧ t.outReady = s.outReady := by
  induction h with
  | nil s => exact ⟨rfl, rfl, rfl⟩
  | cons ready effect _ ih =>
    obtain ⟨hconfig, hinput, hready⟩ := exec_host effect
    obtain ⟨hconfig', hinput', hready'⟩ := ih
    exact ⟨hconfig'.trans hconfig, hinput'.trans hinput, hready'.trans hready⟩

/-- A host that takes every byte never stalls the command port (20_memory.md R37). -/
theorem cmdReady_of_hostTakesOutput {s : State} (h : s.HostTakesOutput) : s.cmdReady = true := by
  obtain ⟨-, hheld, hdepth⟩ := h
  exact decide_eq_true (by rw [hheld]; exact hdepth)

/-! Loading a bundle (40_parameter_commands.md R64 to R67). -/

section
variable {s : State}

/-- Pushing characters into a buffer with room appends them to the key, in order, and writes nothing else. -/
theorem runs_keypush (cs : List Byte) {chars : List Byte} (hs : s.st = .idle) (hready : s.cmdReady = true)
    (hfits : s.klen + cs.length ≤ s.config.keyMax) (hkey : readKey s = .ok chars) :
    ∃ key, Runs (cs.map .keypush) s { s with key := key, klen := s.klen + cs.length } ∧
      readKey { s with key := key, klen := s.klen + cs.length } = .ok (chars ++ cs) := by
  induction cs generalizing s chars with
  | nil => exact ⟨s.key, .nil s, by rwa [List.append_nil]⟩
  | cons c cs ih =>
    have hcount : s.klen + 1 + cs.length = s.klen + (c :: cs).length := by
      rw [List.length_cons, Nat.add_assoc, Nat.add_comm 1]
    have hroom : s.klen < s.config.keyMax := by omega
    obtain ⟨key, hruns, hread⟩ := ih (s := { s with key := Memory.write s.key s.klen c, klen := s.klen + 1 })
      hs hready (hcount.trans_le hfits) (readKey_push c hroom hkey)
    simp only [hcount, List.append_assoc, List.singleton_append] at hruns hread
    exact ⟨key, .cons hready ((exec_keypush_idle c hs).trans (pushKey_room c hroom)) hruns, hread⟩

/-- Adding positions in range adds their bits to the tap set, and writes nothing else. -/
theorem runs_tapadd (positions : List Byte) (hs : s.st = .idle) (hready : s.cmdReady = true)
    (hrange : ∀ p ∈ positions, p.toNat ≤ 7) :
    ∃ taps, Runs (positions.map .tapadd) s { s with taps := taps } ∧
      ∀ j, taps.getLsbD j = true ↔ s.taps.getLsbD j = true ∨ ∃ p ∈ positions, p.toNat = j := by
  induction positions generalizing s with
  | nil => exact ⟨s.taps, .nil s, by simp⟩
  | cons p positions ih =>
    have hp : p.toNat ≤ 7 := hrange p List.mem_cons_self
    have hadd : addTap p s = { s with taps := (addTap p s).taps } := by
      rw [addTap_of_inRange p s (decide_eq_true hp)]
    obtain ⟨taps, hruns, hbits⟩ := ih (s := { s with taps := (addTap p s).taps }) hs hready
      fun q hq => hrange q (List.mem_cons_of_mem p hq)
    refine ⟨taps, .cons hready ((exec_tapadd_idle p hs).trans (congrArg _ hadd)) hruns, fun j => ?_⟩
    simp only [hbits j, addTap_taps_getLsbD, and_iff_right hp, or_assoc, List.mem_cons, exists_eq_or_imp,
      eq_comm (a := j)]

/-- The tap set added to no position is the bundle's. -/
theorem taps_eq_of_isTapSet {taps mask : Byte} {positions : List Byte} (hset : isTapSet mask positions)
    (hbits : ∀ j, taps.getLsbD j = true ↔ (0x00 : Byte).getLsbD j = true ∨ ∃ p ∈ positions, p.toNat = j) :
    taps = mask := by
  refine BitVec.eq_of_getLsbD_eq fun j hj => ?_
  rw [Bool.eq_iff_iff, hbits j, hset.2 j hj]
  simp

/-- Loading a bundle that fits, from the reset registers, leaves `IDLE` with the registers holding it. -/
theorem runs_loadCommands {p : Bundle} {positions : List Byte} (hset : isTapSet p.taps positions)
    (hfits : p.key.length ≤ s.config.keyMax) (hcleared : s.Cleared) (hhost : s.HostTakesOutput) :
    ∃ t, Runs (loadCommands p positions) s t ∧ t.st = .idle ∧ t.Holds p ∧ t.HostTakesOutput ∧ t.out = s.out := by
  have hidle : s.st = .idle := congrArg State.st hcleared
  have hklen : s.klen = 0 := congrArg State.klen hcleared
  have htaps : s.taps = 0x00 := congrArg State.taps hcleared
  have hkey : readKey s = .ok [] := by rw [readKey, hklen]; rfl
  have hready := cmdReady_of_hostTakesOutput hhost
  obtain ⟨key, hpushes, hread⟩ := runs_keypush p.key hidle hready (by rwa [hklen, Nat.zero_add]) hkey
  obtain ⟨taps, hadds, hbits⟩ := runs_tapadd positions
    (s := { s with key := key, klen := s.klen + p.key.length, shift := p.shift, seed := p.seed }) hidle hready hset.1
  refine ⟨_, (hpushes.append (.cons hready (exec_setshift_idle p.shift hidle)
    (.single hready (exec_setseed_idle p.seed hidle)))).append hadds, hidle, ?_, hhost, rfl⟩
  exact {
    key := readKey_ok_congr hread rfl rfl rfl
    shift := rfl
    seed := rfl
    taps := taps_eq_of_isTapSet hset (by rwa [htaps] at hbits)
    keyovf := congrArg State.keyovf hcleared
    tapbad := congrArg State.tapbad hcleared }

end

/-! A job on loaded parameters (R109, R111). -/

/-- What a valid bundle is (R110). -/
theorem bundle_valid_iff (p : Bundle) : p.valid = true ↔
    1 ≤ p.key.length ∧ (∀ c ∈ p.key, isAlpha c = true) ∧ 1 ≤ p.shift.toNat ∧ p.shift.toNat ≤ 25 ∧
      1 ≤ p.seed.toNat := by
  simp only [Bundle.valid, Bool.and_eq_true, decide_eq_true_eq, List.all_eq_true, and_assoc]

/-- Registers that hold a valid bundle pass validation. -/
theorem parametersValid_of_holds {p : Bundle} {s : State} (hp : p.valid = true) (h : s.Holds p) :
    s.ParametersValid := by
  obtain ⟨hlen, halpha, hleast, hmost, hseed⟩ := (bundle_valid_iff p).mp hp
  obtain ⟨hklen, -⟩ := readKey_ok h.key
  exact {
    key_nonempty := hklen ▸ hlen
    key_alphabetic := fun a ha => by
      obtain ⟨c, hc, hread⟩ := readKey_memRead h.key ha
      exact ⟨c, hread, halpha c (List.mem_of_getElem? hc)⟩
    key_held := h.keyovf
    shift_least := h.shift ▸ hleast
    shift_most := h.shift ▸ hmost
    seed_nonzero := fun hzero => by
      rw [← h.seed, hzero] at hseed
      exact absurd hseed (by decide)
    taps_valid := h.tapbad }

/-- A job in the mode `m` on the bundle `p` stands before position `i` of its text: the register and the indexer have
advanced `i` times (R109, 41_vigenere_stage.md R72). -/
structure JobAt (m : Mode) (p : Bundle) (i : Nat) (s : State) : Prop where
  running : s.st = .run
  mode : s.mode = m
  holds : s.Holds p
  register : s.lfsr = (fun r => (ksByte s.config.tapOrder r p.taps).1)^[i] p.seed
  index : s.kidx = i % p.key.length
  host : s.HostTakesOutput

section
variable {m : Mode} {p : Bundle} {s : State}

/-- A start command puts the job before position 0. -/
theorem exec_startCommand_jobAt (m : Mode) (hp : p.valid = true) (hs : s.st = .idle) (hholds : s.Holds p)
    (hhost : s.HostTakesOutput) : ∃ t, exec (startCommand m) s = .next t ∧ JobAt m p 0 t ∧ t.out = s.out := by
  refine ⟨_, exec_startCommand_starts m hs (parametersValid_of_holds hp hholds), ?_, rfl⟩
  exact {
    running := rfl
    mode := rfl
    holds := { hholds with key := readKey_ok_congr hholds.key rfl rfl rfl }
    register := hholds.seed
    index := (Nat.zero_mod _).symm
    host := hhost }

/-- A `DATA` emits what the job makes of its byte at the position, and puts the job before the next one. -/
theorem exec_data_jobAt {i : Nat} (hp : p.valid = true) (h : JobAt m p i s) (b : Byte) :
    ∃ t, exec (.data b) s = .next t ∧ JobAt m p (i + 1) t ∧
      t.out = s.out ++ [jobByteAt m s.config.tapOrder p i b] := by
  obtain ⟨hlen, -⟩ := (bundle_valid_iff p).mp hp
  obtain ⟨hklen, hread⟩ := readKey_ok h.holds.key
  obtain ⟨c, hc⟩ : ∃ c, p.key[i % p.key.length]? = some c := ⟨_, List.getElem?_eq_getElem (Nat.mod_lt i hlen)⟩
  have hmem : memRead s s.kidx = .ok c := h.index ▸ hread _ c hc
  have hregister : (ksByte s.config.tapOrder s.lfsr s.taps).1 =
      (fun r => (ksByte s.config.tapOrder r p.taps).1)^[i + 1] p.seed := by
    rw [Function.iterate_succ_apply', ← h.register, h.holds.taps]
  have hindex : advanceKidx s.kidx s.klen = (i + 1) % p.key.length := by
    rw [h.index, ← hklen, advanceKidx_mod hlen]
  refine ⟨_, exec_data_memRead b h.running hmem, ?_, ?_⟩
  · obtain ⟨hready, -, hdepth⟩ := h.host
    exact {
      running := h.running
      mode := h.mode
      holds := { h.holds with key := readKey_ok_congr h.holds.key rfl rfl rfl }
      register := hregister
      index := hindex
      host := ⟨hready, if_pos hready, hdepth⟩ }
  · rw [jobByteAt, keystreamByteAt, keyValueAt_of_getElem? hc, ← h.register, ← h.holds.taps, ← h.holds.shift,
      ← h.mode]
    rfl

/-- One `DATA` per byte appends what the job makes of the text from the position on. -/
theorem runs_data {i : Nat} (hp : p.valid = true) (h : JobAt m p i s) (x : List Byte) :
    ∃ t, Runs (x.map .data) s t ∧ JobAt m p (i + x.length) t ∧
      t.out = s.out ++ x.mapIdx fun j => jobByteAt m s.config.tapOrder p (i + j) := by
  induction x generalizing i s with
  | nil => exact ⟨s, .nil s, h, (List.append_nil _).symm⟩
  | cons b x ih =>
    obtain ⟨u, hexec, hjob, hout⟩ := exec_data_jobAt hp h b
    obtain ⟨hconfig, -⟩ := exec_host hexec
    obtain ⟨t, hruns, hjob', hout'⟩ := ih hjob
    have hshift (j : Nat) : i + 1 + j = i + (j + 1) := by omega
    refine ⟨t, .cons (cmdReady_of_hostTakesOutput h.host) hexec hruns, ?_, ?_⟩
    · rwa [List.length_cons, ← hshift]
    · simp only [hout', hout, hconfig, hshift, List.mapIdx_cons, List.append_assoc, List.singleton_append,
        Nat.add_zero]

/-- A job on registers that hold a valid bundle appends `Encrypt` or `Decrypt` of the text and leaves the reset
registers. -/
theorem runs_runCommands (m : Mode) (hp : p.valid = true) (x : List Byte) (hs : s.st = .idle) (hholds : s.Holds p)
    (hhost : s.HostTakesOutput) :
    Runs (runCommands m x) s { State.resetWith s.config with
      out := s.out ++ jobOutput m s.config.tapOrder x p, outReady := true, input := s.input } := by
  obtain ⟨t, hstart, hjob, hout⟩ := exec_startCommand_jobAt m hp hs hholds hhost
  obtain ⟨u, hdata, hjob', hout'⟩ := runs_data hp hjob x
  obtain ⟨hready, hheld, -⟩ := hjob'.host
  have hruns : Runs (runCommands m x) s (clearRegisters u) :=
    .cons (cmdReady_of_hostTakesOutput hhost) hstart
      (hdata.append (.single (cmdReady_of_hostTakesOutput hjob'.host) (exec_endJob_run hjob'.running)))
  obtain ⟨hconfig, hinput, -⟩ := hruns.host
  obtain ⟨hstartConfig, -⟩ := exec_host hstart
  rw [clearRegisters_config] at hconfig
  rw [clearRegisters_input] at hinput
  simp only [Nat.zero_add] at hout'
  rwa [clearRegisters_eq_resetWith, hconfig, hinput, hready, hheld, hout', hout, hstartConfig,
    ← jobOutput_eq_mapIdx] at hruns

end

/-- Settles O42: the commands run one after another, and so does the machine on their words. -/
theorem runningJobComputesPipeline : Obligations.RunningJobComputesPipeline := by
  intro m p x s rest hp hs hholds hhost hinput
  have hrun := core_run_presenting (runs_runCommands m hp x hs hholds hhost) rest
  rwa [← hinput] at hrun

/-! A job from the reset registers (R111, R112, 70_reset_and_hazards.md R138). -/

section
variable {p : Bundle} {positions : List Byte} {s : State}

/-- The reset registers with another output stream are the reset registers. -/
theorem cleared_withOut (h : s.Cleared) (out : List Byte) : { s with out := out }.Cleared :=
  (congrArg (fun u : State => { u with out := out }) h :)

/-- The reset registers, when the host takes every byte. -/
theorem cleared_eq_resetWith (h : s.Cleared) (hhost : s.HostTakesOutput) (out : List Byte) :
    { State.resetWith s.config with out := out, outReady := true, input := s.input } = { s with out := out } := by
  obtain ⟨hready, hheld, -⟩ := hhost
  refine Eq.trans ?_ (cleared_withOut h out).symm
  rw [hready, hheld]
  rfl

/-- Loading and running a job appends its output and leaves every register as it was. -/
theorem runs_wholeJob (m : Mode) (x : List Byte) (hp : p.valid = true) (hset : isTapSet p.taps positions)
    (hfits : p.key.length ≤ s.config.keyMax) (hcleared : s.Cleared) (hhost : s.HostTakesOutput) :
    Runs (loadCommands p positions ++ runCommands m x) s
      { s with out := s.out ++ jobOutput m s.config.tapOrder x p } := by
  obtain ⟨t, hload, hidle, hholds, hhost', hout⟩ := runs_loadCommands hset hfits hcleared hhost
  obtain ⟨hconfig, hinput, -⟩ := hload.host
  have hruns := hload.append (runs_runCommands m hp x hidle hholds hhost')
  rwa [hconfig, hinput, hout, cleared_eq_resetWith hcleared hhost] at hruns

end

/-- Settles O43: loading leaves registers that hold the bundle, on which the job runs as in O42. -/
theorem wholeJobComputesPipeline : Obligations.WholeJobComputesPipeline := by
  intro m p positions x s rest hp hset hfits hcleared hhost hinput
  have hrun := core_run_presenting (runs_wholeJob m x hp hset hfits hcleared hhost) rest
  rwa [← hinput] at hrun

/-- Settles O44: the second job starts from the reset registers the first one leaves. -/
theorem roundTrip : Obligations.RoundTrip := by
  refine ⟨fun o x p _ => ⟨decrypt_encrypt o x p, encrypt_decrypt o x p⟩,
    fun p positions x s rest hp hset hfits hcleared hhost hinput => ?_⟩
  have hfirst := runs_wholeJob .forward x hp hset hfits hcleared hhost
  have hsecond := runs_wholeJob .reverse (encrypt s.config.tapOrder x p) hp hset
    (s := { s with out := s.out ++ encrypt s.config.tapOrder x p }) hfits (cleared_withOut hcleared _) hhost
  have hback : jobOutput .reverse s.config.tapOrder (encrypt s.config.tapOrder x p) p = x := decrypt_encrypt _ x p
  rw [hback] at hsecond
  have hrun := core_run_presenting (hfirst.append hsecond) rest
  rwa [← hinput] at hrun

end Sys2Proof.Proofs

/-! Exceptions (60_exceptions.md). -/

namespace Sys2Proof.Proofs

open Sys2Proof.Machine

/-! Nothing presented, and a command that the state does not permit (R134, R123). -/

/-- Settles O11: an empty input presents neither a word nor a pin event. -/
theorem nothingPresentedHoldsState : Obligations.NothingPresentedHoldsState := by
  intro s hin
  exact step_holds (by simp [State.takesWord, hin]) (by simp [State.takesPin, hin])

/-- Settles O16: each listed command is one that the state does not permit. -/
theorem protocolFault : Obligations.ProtocolFault := by
  refine ⟨fun s x i hs hi => exec_run_refused hs ?_, fun s x i hs hi => exec_refused (by simp [hs]) ?_⟩
  · simp only [List.mem_cons, List.not_mem_nil, or_false] at hi
    rcases hi with rfl | rfl | rfl | rfl | rfl | rfl <;> rfl
  · simp only [List.mem_cons, List.not_mem_nil, or_false] at hi
    rw [hs]
    rcases hi with rfl | rfl <;> rfl

/-! A word in `FAULT` (R129). -/

/-- In `FAULT` a word other than `RST` is discarded, legal or not. -/
theorem takeWord_discarded {w : CommandWord} {s : State} (hs : s.st = .fault) (hw : decode w ≠ .ok .rst) :
    takeWord w s = .next s := by
  obtain ⟨-, hdiscard, -⟩ := stepOrderOfTests s w
  exact hdiscard hw hs

/-- Settles O17: the step transfers the word, which is discarded. -/
theorem faultStateDiscardsWords : Obligations.FaultStateDiscardsWords := by
  intro s w rest hs hin hready hw
  rw [step_takesWord ⟨hin, hready⟩]
  exact takeWord_discarded hs hw

/-! What takes the engine into `FAULT` (R116, R126, R128). -/

/-- The flags a word may raise in a state: one of the three causes of R128, each with its own flags. -/
inductive FaultCause (w : CommandWord) (st : EngineState) : Byte → Prop
  | illegal {e : IllegalWord} (hw : decode w = .error e) : FaultCause w st eIllegal
  | notPermitted {i : Instr} (hw : decode w = .ok i) (hp : permittedIn i st = false) : FaultCause w st eProto
  | invalid {i : Instr} {f : Byte} (hw : decode w = .ok i) (hp : permittedIn i st = true) (hi : i = .enc ∨ i = .dec)
      (hne : f ≠ 0x00) (hhigh : f &&& 0xC0 = 0x00) : FaultCause w st f

/-- Every cause raises a flag. -/
theorem FaultCause.ne_zero {w : CommandWord} {st : EngineState} {f : Byte} (h : FaultCause w st f) : f ≠ 0x00 := by
  cases h with
  | illegal => decide
  | notPermitted => decide
  | invalid _ _ _ hne _ => exact hne

section
variable {s t : State}

/-- The start of a job that ends in `FAULT` raised the flags of validation and did nothing else. -/
theorem startJob_faults {m : Mode} (h : startJob m s = .next t) (ht : t.st = .fault) :
    ∃ f : Byte, f ≠ 0x00 ∧ f &&& 0xC0 = 0x00 ∧ t = raiseFault f s := by
  obtain ⟨chars, -, ⟨-, rfl⟩ | ⟨hne, rfl⟩⟩ := startJob_next h
  · cases ht
  · exact ⟨validate chars s, hne, validate_and_high chars s, rfl⟩

/-- Of the permitted commands only `ENC` and `DEC` can fault: the others leave `ST` or return to `IDLE`. -/
theorem exec_permitted_faults {i : Instr} (hp : permittedIn i s.st = true) (h : exec i s = .next t)
    (hs : s.st ≠ .fault) (ht : t.st = .fault) :
    (i = .enc ∨ i = .dec) ∧ ∃ f : Byte, f ≠ 0x00 ∧ f &&& 0xC0 = 0x00 ∧ t = raiseFault f s := by
  rw [exec_permitted hp] at h
  cases i with
  | keypush c => exact absurd ((pushKey_st h).symm.trans ht) hs
  | setshift v => cases h; exact absurd ht hs
  | setseed v => cases h; exact absurd ht hs
  | tapadd p => cases h; exact absurd ((addTap_st p s).symm.trans ht) hs
  | enc => exact ⟨.inl rfl, startJob_faults h ht⟩
  | dec => exact ⟨.inr rfl, startJob_faults h ht⟩
  | data b => obtain ⟨_, -, rfl⟩ := transformByte_next h; exact absurd ht hs
  | endJob => cases h; cases ht
  | rst => cases h; cases ht

/-- A word that takes the engine into `FAULT` raises the flags of its cause, and that is all it does. -/
theorem takeWord_faults {w : CommandWord} (h : takeWord w s = .next t) (hs : s.st ≠ .fault) (ht : t.st = .fault) :
    ∃ f, FaultCause w s.st f ∧ t = raiseFault f s := by
  rcases takeWord_next h with ⟨e, hw, rfl⟩ | ⟨i, hw, hexec⟩
  · exact ⟨eIllegal, .illegal hw, if_neg hs⟩
  · rcases exec_next hexec with ⟨hfault, -, -⟩ | ⟨-, hp, rfl⟩ | hp
    · exact absurd hfault hs
    · exact ⟨eProto, .notPermitted hw hp, rfl⟩
    · obtain ⟨hi, f, hne, hhigh, rfl⟩ := exec_permitted_faults hp hexec hs ht
      exact ⟨f, .invalid hw hp hi hne hhigh, rfl⟩

end

/-- Settles O18: the word does nothing but raise its flags, and in `FAULT` later words are discarded. -/
theorem faultsArePrecise : Obligations.FaultsArePrecise := by
  intro w s t h hs ht
  obtain ⟨f, hcause, rfl⟩ := takeWord_faults h hs ht
  exact ⟨rfl, hcause.ne_zero, fun _ => takeWord_discarded ht⟩

/-- Settles O19: the flags are those of the one cause that the word and the state have. -/
theorem faultFlagsByCause : Obligations.FaultFlagsByCause := by
  intro w s t h hs ht
  obtain ⟨f, hcause, rfl⟩ := takeWord_faults h hs ht
  cases hcause with
  | illegal hw => rw [hw]; rfl
  | notPermitted hw hp => rw [hw]; exact .inl ⟨hp, rfl⟩
  | invalid hw hp hi hne hhigh => rw [hw]; exact .inr ⟨hp, hi, hne, hhigh⟩

end Sys2Proof.Proofs

/-! Reset, back-pressure and the merged adders (70_reset_and_hazards.md). -/

namespace Sys2Proof.Proofs

open Sys2Proof.Machine

/-! What the output port holds (R144). -/

/-- The state with other bytes held and another level of `out_ready`. -/
def withPort (s : State) (held : List Byte) (level : Bool) : State := { s with held := held, outReady := level }

section
variable {s t : State} (held : List Byte) (level : Bool)

/-- No check of the parameters reads the output port (44_pipeline_commands.md R100). -/
theorem startJob_withPort {m : Mode} (h : startJob m s = .next t) :
    startJob m (withPort s held level) = .next (withPort t held level) := by
  obtain ⟨chars, hkey, hcases⟩ := startJob_next h
  have hread : readKey (withPort s held level) = .ok chars := readKey_ok_congr hkey rfl rfl rfl
  rw [startJob_of_readKey hread]
  rcases hcases with ⟨hzero, rfl⟩ | ⟨hne, rfl⟩
  · exact if_pos hzero
  · exact if_neg hne

theorem addTap_withPort (p : Byte) : addTap p (withPort s held level) = withPort (addTap p s) held level := by
  cases hp : tapInRange p with
  | true => rw [addTap_of_inRange p s hp, addTap_of_inRange p _ hp]; rfl
  | false => rw [addTap_of_outOfRange p s hp, addTap_of_outOfRange p _ hp]; rfl

/-- The byte appended to `OUT` does not depend on the port; where it goes from there does. -/
theorem emit_withPort (v : Byte) :
    emit v (withPort s held level) = withPort (emit v s) (if level then [] else held ++ [v]) level := rfl

/-- The emitted byte is computed from the registers and the key alone (44_pipeline_commands.md R103). -/
theorem transformByte_withPort {b : Byte} (h : transformByte b s = .next t) :
    ∃ held', transformByte b (withPort s held level) = .next (withPort t held' level) := by
  obtain ⟨c, hc, rfl⟩ := transformByte_next h
  have hread : memRead (withPort s held level) (withPort s held level).kidx = .ok c := hc
  exact ⟨_, by rw [transformByte_of_memRead hread, emit_withPort]; rfl⟩

/-- Every command does the same to the registers and `OUT`, whatever the port holds; a `DATA` in `RUN` is the one that
writes what is held. -/
theorem exec_withPort {i : Instr} (h : exec i s = .next t) :
    ∃ held', exec i (withPort s held level) = .next (withPort t held' level) := by
  rcases exec_next h with ⟨hfault, hi, rfl⟩ | ⟨hne, hp, rfl⟩ | hp
  · exact ⟨held, exec_fault (s := withPort t held level) hfault hi⟩
  · exact ⟨held, exec_refused (s := withPort s held level) hne hp⟩
  · rw [exec_permitted hp] at h
    rw [exec_permitted (s := withPort s held level) hp]
    cases i with
    | keypush c =>
      rcases pushKey_next h with ⟨hroom, rfl⟩ | ⟨hfull, rfl⟩
      · exact ⟨held, pushKey_room (s := withPort s held level) c hroom⟩
      · exact ⟨held, pushKey_full (s := withPort s held level) c hfull⟩
    | setshift v => cases h; exact ⟨held, rfl⟩
    | setseed v => cases h; exact ⟨held, rfl⟩
    | tapadd p => cases h; exact ⟨held, congrArg _ (addTap_withPort held level p)⟩
    | enc => exact ⟨held, startJob_withPort held level h⟩
    | dec => exact ⟨held, startJob_withPort held level h⟩
    | data b => exact transformByte_withPort held level h
    | endJob => cases h; exact ⟨held, rfl⟩
    | rst => cases h; exact ⟨held, rfl⟩

end

/-- Settles O59: the run with the other port leaves the same state but for the port. -/
theorem backPressureChangesNoValue : Obligations.BackPressureChangesNoValue := by
  intro i s t held level h
  obtain ⟨held', hexec⟩ := exec_withPort held level h
  exact ⟨withPort t held' level, hexec, rfl⟩

/-! A word that the command port cannot take (R144). -/

/-- A full port holds the state while no pin event stands directly behind the presented word. -/
theorem step_stalled {s : State} {w : CommandWord} {rest : List HostEvent} (hfull : s.cmdReady = false)
    (hin : s.input = .word w :: rest) (hpin : ∀ e later, rest ≠ .pin e :: later) : step s = .next s := by
  apply step_holds
  · rintro w' rest' ⟨-, hready⟩
    exact Bool.false_ne_true (hfull.symm.trans hready)
  · rintro e rest' (hfirst | ⟨w', later, -, hsecond, -⟩)
    · cases hin.symm.trans hfirst
    · exact hpin e later (List.cons.inj (hin.symm.trans hsecond)).2

/-- Settles O58: the two shapes without a pin event hold the state, and in the third the pin event is the one taken. -/
theorem stalledCommandPortWaits : Obligations.StalledCommandPortWaits :=
  ⟨fun _ _ hfull hin => step_stalled hfull hin nofun,
    fun _ _ _ _ hfull hin => step_stalled hfull hin nofun,
    fun _ w _ rest hfull hin => step_takesPin (.inr ⟨w, rest, hfull, hin, rfl⟩)⟩

/-! Reset (R135, R137). -/

/-- Settles O2: the pin is `pinReset`, the two commands are `clearRegisters`, and both write the reset registers. -/
theorem resetEventsLeaveResetRegisters : Obligations.ResetEventsLeaveResetRegisters := by
  refine ⟨fun s rest hin => ?_, fun s => ?_, fun s hs => ?_⟩
  · rw [step_takesPin (.inl hin)]
    exact congrArg Host.Outcome.next (pinReset_eq_resetWith { s with input := rest })
  · exact congrArg Host.Outcome.next (clearRegisters_eq_resetWith s)
  · rw [exec_endJob_run hs, clearRegisters_eq_resetWith]

/-! The adders of the forward path (R148). -/

/-- Settles O40: a sum taken modulo 256 after each addition is the sum taken modulo 256 once. -/
theorem forwardAddersMerge : Obligations.ForwardAddersMerge := by
  intro b s k
  calc caeFwd (vigFwd b k) s
      = mod256 ((b.toNat : Int) + k) + mod256 s.toNat := by rw [caeFwd, mod256_add, mod256_natCast_toNat, vigFwd]
    _ = mod256 ((b.toNat : Int) + k + s.toNat) := (mod256_add _ _).symm

end Sys2Proof.Proofs

/-! The notation `mod256` (00_scope.md section 5). -/

namespace Sys2Proof.Proofs

open Sys2Proof.Machine

/-- Settles O27: `mod256_toNat` is the general clause, and the three examples evaluate. -/
theorem mod256IsRemainder : Obligations.Mod256IsRemainder :=
  ⟨mod256_toNat, by decide, by decide, by decide⟩

end Sys2Proof.Proofs
